-- ==== Sys2Proof/Word.lean ====
section
/-! DEFINITION. The word type of the block (00_scope.md R2) and the state buffer's type (10_state.md R8). -/

namespace Sys2Proof

/-- A u32: every state word, operand, payload word and result (R2).  `BitVec 32` reduces every sum,
difference and product modulo 2^32 (R2), its `>>>` is logical and its `<<<` drops the bits above 31 (R4). -/
abbrev Word := BitVec 32

/-- The state buffer `MT[0..623]`: exactly 624 words, "never resized" (R8; log 6). -/
abbrev Buffer := Vector Word 624

end Sys2Proof
end

