-- ==== Sys2Proof/Syntax.lean ====
section
/-! DEFINITION. The commands of MTC-1 (30_encoding.md R33, R36): one constructor per row of
spec/opcode_table.json. -/

namespace Sys2Proof

/-- A command with its operands. -/
inductive Instr where
  /-- SEED_SCALAR s: the seed is payload word P[0] (R33, R43). -/
  | seedScalar (s : Word)
  /-- SEED_ARRAY key: the key is P[0..LEN-1], and key_length = LEN is the key's length (R33, R48).
  The empty key is a form of this command: it answers INVALID_ARGUMENT (R36, R48). -/
  | seedArray (key : List Word)
  /-- NEXT_U32, no operand (R54). -/
  | nextU32
  /-- READ_STATUS, no operand (R55). -/
  | readStatus
  deriving DecidableEq, Repr

/-- The operation code OP of a command (R36). -/
def Instr.opcode : Instr → BitVec 4
  | .seedScalar _ => 0x1#4
  | .seedArray _ => 0x2#4
  | .nextU32 => 0x3#4
  | .readStatus => 0x4#4

end Sys2Proof
end

