-- ==== Sys2Proof/WellFormed.lean ====
section
/-! DEFINITION. Which commands a packet can carry: the operand bounds of 30_encoding.md R32, R36. -/

namespace Sys2Proof

/-- A command is well-formed when its operands fit its packet.  The one bound is the key length: LEN is
a 24-bit field, so key_length ≤ 2^24 − 1 (R32, R36; D4; U12).  Words are u32 by type. -/
def Instr.wellFormed : Instr → Bool
  | .seedScalar _ => true
  | .seedArray key => decide (key.length < 2 ^ 24)
  | .nextU32 => true
  | .readStatus => true

end Sys2Proof
end

