-- ==== Sys2Proof/Decode.lean ====
section
/-! DEFINITION. Command packets: the header's fields (30_encoding.md R32), the decoder (R37), the encoder
(R36) and the words of an opcode-table row. -/

namespace Sys2Proof

/-- A framed command packet: one header word H and n ≥ 0 payload words (R32). -/
structure Packet where
  header : Word
  payload : List Word
  deriving DecidableEq, Repr

/-- H[3:0], the operation code (R32). -/
def headerOp (h : Word) : BitVec 4 := h.extractLsb' 0 4

/-- H[7:4], reserved, must be 0 (R32). -/
def headerRsv (h : Word) : BitVec 4 := h.extractLsb' 4 4

/-- H[31:8], LEN (R32); read as an unsigned number, "neither scaled nor sign-extended" (R38). -/
def headerLen (h : Word) : BitVec 24 := h.extractLsb' 8 24

/-- The header with the fields `{LEN, RSV, OP}` (R32); with RSV = 0 it is `(LEN << 8) | OP` (R36). -/
def mkHeader (op rsv : BitVec 4) (len : BitVec 24) : Word :=
  (len.setWidth 32 <<< 8) ||| (rsv.setWidth 32 <<< 4) ||| op.setWidth 32

/-- Why a packet is illegal (R40), in the check order of R37 and R72. -/
inductive IllegalReason where
  /-- RSV ≠ 0. -/
  | reservedBits
  /-- OP = 0x0 or OP in 0x5 to 0xF. -/
  | reservedOp
  /-- LEN ≠ 0 on an operation other than SEED_ARRAY. -/
  | lenNotZero
  /-- A payload count that the operation does not take. -/
  | payloadCount
  deriving DecidableEq, Repr

/-- What decoding a packet yields: a command to perform, or ILLEGAL_COMMAND with its reason. -/
inductive Decoded where
  | instr (i : Instr)
  | illegal (r : IllegalReason)
  deriving DecidableEq, Repr

/-- SEED_SCALAR takes exactly one payload word, the seed (R33, R37). -/
def decodeSeedScalar : List Word → Decoded
  | [s] => .instr (.seedScalar s)
  | _ => .illegal .payloadCount

/-- A command without payload (R33, R37). -/
def decodeBare (i : Instr) : List Word → Decoded
  | [] => .instr i
  | _ :: _ => .illegal .payloadCount

/-- The decoder (R37): RSV first, then OP, then the shape of LEN and payload.  The empty key decodes to
SEED_ARRAY, whose meaning answers INVALID_ARGUMENT: every check of this function comes before that one
(R37; log 7). -/
def decode (p : Packet) : Decoded :=
  if headerRsv p.header ≠ 0#4 then .illegal .reservedBits
  else if headerOp p.header = 0x1#4 then
    if headerLen p.header ≠ 0#24 then .illegal .lenNotZero else decodeSeedScalar p.payload
  else if headerOp p.header = 0x2#4 then
    if p.payload.length = (headerLen p.header).toNat then .instr (.seedArray p.payload)
    else .illegal .payloadCount
  else if headerOp p.header = 0x3#4 then
    if headerLen p.header ≠ 0#24 then .illegal .lenNotZero else decodeBare .nextU32 p.payload
  else if headerOp p.header = 0x4#4 then
    if headerLen p.header ≠ 0#24 then .illegal .lenNotZero else decodeBare .readStatus p.payload
  else .illegal .reservedOp

/-- The encoder (R33, R36): the packet of a well-formed command. -/
def encode : Instr → Packet
  | .seedScalar s => ⟨mkHeader 0x1#4 0#4 0#24, [s]⟩
  | .seedArray key => ⟨mkHeader 0x2#4 0#4 (BitVec.ofNat 24 key.length), key⟩
  | .nextU32 => ⟨mkHeader 0x3#4 0#4 0#24, []⟩
  | .readStatus => ⟨mkHeader 0x4#4 0#4 0#24, []⟩

/-- How many payload words a header's operation takes (R33); 0 for a reserved operation. -/
def payloadWords (h : Word) : Nat :=
  if headerOp h = 0x1#4 then 1 else if headerOp h = 0x2#4 then (headerLen h).toNat else 0

/-- The packet of an opcode-table row: bit 0 of `w` is bit 0 of the header, the bits above `nbits` are 0,
and payload word j is bits 32(j+1)+31 down to 32(j+1); as many payload words as the operation takes, and
no fewer than `nbits` covers (log 14). -/
def tablePacket (nbits w : Nat) : Packet :=
  let v := w % 2 ^ nbits
  let h := BitVec.ofNat 32 v
  ⟨h, (List.range (max (payloadWords h) ((nbits + 31) / 32 - 1))).map fun j =>
    BitVec.ofNat 32 (v >>> (32 * (j + 1)))⟩

/-- The command the decoder reads from an opcode-table row's words; none where it refuses them. -/
def decodeTableWord (nbits w : Nat) : Option Instr :=
  match decode (tablePacket nbits w) with
  | .instr i => some i
  | .illegal _ => none

end Sys2Proof
end

