-- ==== Sys2Proof/Config.lean ====
section
/-! DEFINITION. What is fixed when the block is built: the constants of 10_state.md R11, the parameter
`SEED_PHASE2_MODE` of R12, and the free value for contents that the spec leaves open.
N = 624, M = 397 and the shift counts (11, 7, 15, 18, 1, 30) of R11 stand as numerals where they are used. -/

namespace Sys2Proof

/-- MATRIX_A, the twist's matrix coefficient (R11). -/
abbrev matrixA : Word := 0x9908b0df#32
/-- UPPER_MASK: bit 31 (R6, R11). -/
abbrev upperMask : Word := 0x80000000#32
/-- LOWER_MASK: bits 30:0 (R6, R11). -/
abbrev lowerMask : Word := 0x7fffffff#32
/-- TEMPER_B, the first tempering mask (R11). -/
abbrev temperB : Word := 0x9d2c5680#32
/-- TEMPER_C, the second tempering mask (R11). -/
abbrev temperC : Word := 0xefc60000#32
/-- F_INIT, the scalar seeding multiplier (R11). -/
abbrev fInit : Word := 1812433253#32
/-- DEFAULT_SEED (R11). -/
abbrev defaultSeedValue : Word := 5489#32
/-- ARRAY_BOOT, the seed the array seeder starts from (R11). -/
abbrev arrayBoot : Word := 19650218#32
/-- F_MIX1, the phase-1 multiplier (R11). -/
abbrev fMix1 : Word := 1664525#32
/-- F_MIX2, the phase-2 multiplier (R11). -/
abbrev fMix2 : Word := 1566083941#32
/-- FORCED_W0, the word array seeding forces into MT[0] (R11). -/
abbrev forcedW0 : Word := 0x80000000#32

/-- The two values of `SEED_PHASE2_MODE` (R12). -/
inductive Phase2Mode where
  /-- MT-SPEC §4.2 option (b): one assignment after the loop. -/
  | canonical
  /-- MT-SPEC §4.2 option (a): the overwrite is repeated in every phase-2 iteration. -/
  | sourceCompat
  deriving DecidableEq, Repr

/-- The mode as READ_STATUS shows it: CANONICAL is encoded 0, SOURCE_COMPAT 1 (R12, R15). -/
def Phase2Mode.code : Phase2Mode → Word
  | .canonical => 0#32
  | .sourceCompat => 1#32

/-- The build's configuration (R12): fixed when the block is built; no command changes it.  The default
is CANONICAL.  DESIGN CHOICE (log 2), safe: it is carried in State, so that claims cover both builds. -/
structure Config where
  seedPhase2Mode : Phase2Mode := .canonical
  deriving DecidableEq, Repr

/-- The free value for a word whose contents the spec leaves unspecified (R17, R80; U2 "any value"): it
has no body, so no claim can rest on what it is.  The argument is the number of the draw
(DESIGN CHOICE, log 4, safe). -/
opaque freeWord : Nat → Word

end Sys2Proof
end

