-- ==== Sys2Proof/Machine/State.lean ====
section
/-! DEFINITION. The state of the block and of its channels, as plain data (10_state.md; 20_memory.md R28;
30_encoding.md R34; 70_reset_and_hazards.md R80, R86). -/

namespace Sys2Proof.Machine

/-- The result codes (30_encoding.md R35).  The reserved code 3 is never emitted, so it has no name. -/
inductive ResultCode where
  /-- RES = 0: the command was performed. -/
  | ok
  /-- RES = 1: SEED_ARRAY with an empty key; nothing changed. -/
  | invalidArgument
  /-- RES = 2: the packet is malformed; nothing changed. -/
  | illegalCommand
  deriving DecidableEq, Repr

/-- A response packet (R34): the fields of its header, and the data word where it has one. -/
structure Response where
  res : ResultCode
  opEcho : BitVec 4
  data : Option Word
  deriving DecidableEq, Repr

/-- One word on the command channel; `last` marks the last word of its packet (R32). -/
structure ChannelWord where
  word : Word
  last : Bool
  deriving DecidableEq, Repr

/-- What the host can do at the interface (R28, R80, R86). -/
inductive HostMove where
  /-- Put words on the command channel. -/
  | send (ws : List ChannelWord)
  /-- Take the waiting response. -/
  | take
  /-- Assert the reset input. -/
  | reset
  deriving DecidableEq, Repr

/-- Everything the spec gives the block, and the outside world's part of its interface. -/
structure State where
  /-- The build's configuration (10_state.md R12); no step changes it (log 2). -/
  cfg : Config
  /-- The state buffer MT[0..623] (R8). -/
  mt : Buffer
  /-- The cursor MTI, a 10-bit register with the legal values 0..625 (R9). -/
  mti : BitVec 10
  /-- The words of a partly received command packet, oldest first (R80, R86). -/
  rx : List Word
  /-- The response waiting to be taken (R28). -/
  response : Option Response
  /-- The model's own field: the words on the command channel that the block has not received, oldest
  first (log 8). -/
  channel : List ChannelWord
  /-- The model's own field: what the host will do, oldest first (log 8). -/
  moves : List HostMove
  /-- The model's own field: how many free words have been drawn (log 4). -/
  draws : Nat
  deriving DecidableEq, Repr

/-- Reasons to stop with a fault: none.  "No trap is ever entered" (60_exceptions.md R73), no arithmetic
condition is an error (00_scope.md R5), and every error is a response (R71;
log 17, DEDUCED, safe). -/
inductive Fault where
  deriving DecidableEq, Repr

/-- Reasons to refuse an instruction. -/
inductive Refusal where
  /-- Raised by an arm of `exec` whose instruction has no meaning yet (safe).  No arm raises it: every
  row of the opcode table has its meaning. -/
  | notModelled (mnemonic : String)
  deriving DecidableEq, Repr

/-- The reset state of a build, with given buffer contents (R17, R81): MTI = 625, nothing pending.  The
contents are unspecified (R17), so claims about reset are made for every `mt`. -/
def State.resetOf (cfg : Config) (mt : Buffer) : State where
  cfg := cfg
  mt := mt
  mti := 625#10
  rx := []
  response := none
  channel := []
  moves := []
  draws := 0

/-- The machine right after reset: the default build, CANONICAL (R12; log 2).  The spec gives no contents
for the buffer; zeros are a DESIGN CHOICE (log 3), unsafe: a proof could rest on them. -/
def State.reset : State := State.resetOf {} (Vector.replicate 624 0)

end Sys2Proof.Machine
end

