-- ==== Sys2Proof/Machine/Operands.lean ====
section
/-! DEFINITION. The operand forms: how the seeders read words of the buffer and of the key
(20_memory.md R21; 30_encoding.md R38; 40_core_commands.md R45, R46). -/

namespace Sys2Proof.Machine

/-- `x ^ (x >> 30)`: how all three seeding recurrences read the word before the one they write
(40_core_commands.md R42, R45, R46). -/
def foldTop (x : Word) : Word := x ^^^ (x >>> 30)

/-- `key[j] + j`: the key operand of phase 1, a payload word used unchanged plus the index j modulo 2^32
(R38, R45). -/
def keyOperand (key : List Word) (j : Fin key.length) : Word := key[j] + BitVec.ofNat 32 j

/-- The key index after j: `j + 1`, or 0 once it reaches key_length (R45). -/
def nextKeyIndex {n : Nat} (j : Fin n) : Fin n :=
  if h : j.val + 1 < n then ⟨j.val + 1, h⟩ else ⟨0, Nat.zero_lt_of_lt j.isLt⟩

end Sys2Proof.Machine
end

