-- ==== Sys2Proof/Machine/Flags.lean ====
section
/-! DEFINITION. The block "keeps no status flags and no condition codes" (10_state.md R14).  What it has in
their place: the status word (R15) and the response header with its result code (30_encoding.md R34, R35). -/

namespace Sys2Proof.Machine

/-- `status = zext_32(MTI) | (MODE << 16)` (R15): a view of the state, with no storage of its own. -/
def statusWord (s : State) : Word := s.mti.setWidth 32 ||| (s.cfg.seedPhase2Mode.code <<< 16)

/-- The numeric result code RES (R35). -/
def ResultCode.code : ResultCode → BitVec 2
  | .ok => 0#2
  | .invalidArgument => 1#2
  | .illegalCommand => 2#2

/-- The response header RH (R34): RES in bits 1:0, OP_ECHO in bits 7:4, and zeros elsewhere (U6). -/
def Response.header (r : Response) : Word := (r.opEcho.setWidth 32 <<< 4) ||| r.res.code.setWidth 32

/-- The words of a response packet: RH, then the data word where there is one (R34). -/
def Response.words (r : Response) : List Word := r.header :: r.data.toList

/-- The serialized form that R31 (20_memory.md) fixes for a later extension: MT[0], …, MT[623], then MTI.  No
command of MTC-1 produces it; the cursor's width and the byte order in it are not given, so it is a list of
words and a number. -/
def State.serialized (s : State) : List Word × Nat := (s.mt.toList, s.mti.toNat)

end Sys2Proof.Machine
end

