-- ==== Sys2Proof/Machine/Ops.lean ====
section
/-! DEFINITION. The operations the commands share: emitting a response, reporting an error, and reset.
The block takes no exception and has no return from one: "No trap is ever entered ... There is no
return-from-trap command" (60_exceptions.md R73).  Reporting an error in the response (R70, R71) stands in
that place. -/

namespace Sys2Proof.Machine

/-- `respond(res, d)`: emit the response packet and end the command (00_scope.md section 5; R28, R34). -/
def respond (res : ResultCode) (op : BitVec 4) (data : Option Word) (s : State) : State :=
  { s with response := some ⟨res, op, data⟩ }

/-- `raise InvalidArgument()` and `raise IllegalCommand()`: a response with no data word and no change to
any other state (60_exceptions.md R70). -/
def raiseError (res : ResultCode) (op : BitVec 4) (s : State) : State :=
  respond res op none s

/-- The host takes the waiting response, if there is one (20_memory.md R28; log 9). -/
def takeResponse (s : State) : State := { s with response := none }

/-- Unspecified buffer contents (10_state.md R17; U2 "any value"): 624 free words, drawn from the given
number on (log 4). -/
@[irreducible] def freeBuffer (draws : Nat) : Buffer := Vector.ofFn fun i => freeWord (draws + i.val)

/-- The reset input (70_reset_and_hazards.md R80): no response, no partly received packet, MTI = 625, and
unspecified buffer contents (R17; log 4).  Words the block has not received are
the host's and stay on the channel (log 10). -/
def resetInput (s : State) : State :=
  { s with
    mt := freeBuffer s.draws
    mti := 625#10
    rx := []
    response := none
    draws := s.draws + 624 }

end Sys2Proof.Machine
end

