-- ==== Sys2Proof/Machine/Seed.lean ====
section
/-! DEFINITION. Scalar seeding (40_core_commands.md section 1): SeedFill and SEED_SCALAR. -/

namespace Sys2Proof.Machine

/-- `1812433253 * (x ^ (x >> 30)) + i`, modulo 2^32: word i from word i − 1 (R42). -/
def seedNext (x : Word) (i : Nat) : Word := fInit * foldTop x + BitVec.ofNat 32 i

/-- `SeedFill(s)` (R42): `MT[0] <- s`, then for i = 1 to 623 in increasing order word i from word i − 1.
Here i = t + 1. -/
@[irreducible] def seedFill (mt : Buffer) (s : Word) : Buffer :=
  Nat.fold 623 (fun t h (mt : Buffer) => mt.set (t + 1) (seedNext mt[t] (t + 1))) (mt.set 0 s)

/-- SEED_SCALAR (R43): fill the buffer from the seed, then `MTI <- 624` (conflict C1), answer OK. -/
def execSeedScalar (seed : Word) (s : State) : Host.Outcome State Fault Refusal :=
  .next (respond .ok 0x1#4 none { s with mt := seedFill s.mt seed, mti := 624#10 })

end Sys2Proof.Machine
end

