-- ==== Sys2Proof/Machine/ArrayMix.lean ====
section
/-! DEFINITION. Array seeding (40_core_commands.md section 2): ArrayMix in its four parts, and SEED_ARRAY. -/

namespace Sys2Proof.Machine

/-- A walk over the buffer: the buffer and the state index i (R44). -/
structure Walk where
  mt : Buffer
  i : Fin 624

/-- Phase 1 also walks the key, with the key index j (R44). -/
structure KeyWalk (n : Nat) where
  walk : Walk
  j : Fin n

/-- `MT[i] ^ ((MT[i-1] ^ (MT[i-1] >> 30)) * f)`: the part both phases share (R45, R46). -/
def mixed (f : Word) (w : Walk) : Word := w.mt[w.i] ^^^ (foldTop w.mt[w.i.val - 1] * f)

/-- Write `MT[i]`, then `i <- i + 1`, and "if i >= 624: MT[0] <- MT[623]; i <- 1" (R45, R46). -/
def Walk.writeAndAdvance (w : Walk) (v : Word) : Walk :=
  let mt := w.mt.set w.i v
  if h : w.i.val + 1 < 624 then ⟨mt, ⟨w.i.val + 1, h⟩⟩ else ⟨mt.set 0 mt[623], 1⟩

/-- One iteration of phase 1 (R45): the write of MT[i], both increments, the i wrap, the j wrap. -/
def phase1Step (key : List Word) (m : KeyWalk key.length) : KeyWalk key.length where
  walk := m.walk.writeAndAdvance (mixed fMix1 m.walk + keyOperand key m.j)
  j := nextKeyIndex m.j

/-- The start of phase 1 (R44): SeedFill(19650218), i = 1, j = 0. -/
def phase1Start (mt : Buffer) (key : List Word) (h : 0 < key.length) : KeyWalk key.length where
  walk := ⟨seedFill mt arrayBoot, 1⟩
  j := ⟨0, h⟩

/-- Phase 1 (R45): max(624, key_length) iterations. -/
@[irreducible] def phase1 (mt : Buffer) (key : List Word) (h : 0 < key.length) : KeyWalk key.length :=
  (phase1Step key)^[max 624 key.length] (phase1Start mt key h)

/-- SOURCE_COMPAT's overwrite at the end of each phase-2 iteration; nothing under CANONICAL (R46, R47;
decision D8 places it after the wrap check). -/
def overwrite (mode : Phase2Mode) (w : Walk) : Walk :=
  match mode with
  | .canonical => w
  | .sourceCompat => { w with mt := w.mt.set 0 forcedW0 }

/-- One iteration of phase 2 (R46): `MT[i] <- (…) - i`, the advance, and the mode's overwrite. -/
def phase2Step (mode : Phase2Mode) (w : Walk) : Walk :=
  overwrite mode (w.writeAndAdvance (mixed fMix2 w - BitVec.ofNat 32 w.i.val))

/-- Phase 2 (R46): 623 iterations from the i that phase 1 left. -/
@[irreducible] def phase2 (mode : Phase2Mode) (w : Walk) : Walk := (phase2Step mode)^[623] w

/-- `ArrayMix(key)` (R44 to R47): the bootstrap, phase 1, phase 2, and `MT[0] <- 0x80000000`. -/
def arrayMix (mode : Phase2Mode) (mt : Buffer) (key : List Word) (h : 0 < key.length) : Buffer :=
  (phase2 mode (phase1 mt key h).walk).mt.set 0 forcedW0

/-- SEED_ARRAY (R48): INVALID_ARGUMENT with no state change for the empty key; otherwise mix the key in,
then `MTI <- 624`, and answer OK. -/
def execSeedArray (key : List Word) (s : State) : Host.Outcome State Fault Refusal :=
  .next <|
    if h : 0 < key.length then
      respond .ok 0x2#4 none { s with mt := arrayMix s.cfg.seedPhase2Mode s.mt key h, mti := 624#10 }
    else raiseError .invalidArgument 0x2#4 s

end Sys2Proof.Machine
end

