-- ==== Sys2Proof/Machine/Twist.lean ====
section
/-! DEFINITION. The twist engine and the tempering tree (40_core_commands.md sections 3 and 4). -/

namespace Sys2Proof.Machine

/-- The new word of a twist step from the three words it reads: `y = {a[31], b[30:0]}`, and the result is
`c ^ (y >> 1) ^ (y[0] ? MATRIX_A : 0)` (R49). -/
def twistCombine (a b c : Word) : Word :=
  let y := (a &&& upperMask) ||| (b &&& lowerMask)
  c ^^^ (y >>> 1) ^^^ (if y.getLsbD 0 then matrixA else 0#32)

/-- `TwistWord(k)` (R49): rewrite word k from words k, (k+1) mod 624 and (k+397) mod 624. -/
def twistWord (mt : Buffer) (k : Fin 624) : Buffer :=
  mt.set k (twistCombine mt[k]
    (mt[(k.val + 1) % 624]'(Nat.mod_lt _ (by decide)))
    (mt[(k.val + 397) % 624]'(Nat.mod_lt _ (by decide))))

/-- `Twist()` (R50): TwistWord(k) for k = 0, 1, …, 623, in increasing order, in place. -/
@[irreducible] def twist (mt : Buffer) : Buffer :=
  Nat.fold 624 (fun k h (mt : Buffer) => twistWord mt ⟨k, h⟩) mt

/-- `Temper(y)` (R51): four steps, each on the y of the step before. -/
def temper (y : Word) : Word :=
  let y := y ^^^ (y >>> 11)
  let y := y ^^^ ((y <<< 7) &&& temperB)
  let y := y ^^^ ((y <<< 15) &&& temperC)
  y ^^^ (y >>> 18)

end Sys2Proof.Machine
end

