-- ==== Sys2Proof/Machine/Output.lean ====
section
/-! DEFINITION. The output path and the status command (40_core_commands.md section 5): NEXT_U32 and
READ_STATUS. -/

namespace Sys2Proof.Machine

/-- `DefaultSeed()` (R53): SeedFill(5489), then `MTI <- 624`. -/
def defaultSeed (s : State) : State := { s with mt := seedFill s.mt defaultSeedValue, mti := 624#10 }

/-- The refill of NEXT_U32: `Twist()`, then `MTI <- 0` (R54). -/
def refill (s : State) : State := { s with mt := twist s.mt, mti := 0#10 }

/-- What NEXT_U32 does before it reads a word (R54): if MTI ≥ 624, default-seed when MTI = 625, then
refill.  The unreachable cursors above 625 refill too, as the text says (log 5, DEDUCED, safe). -/
def refillIfDue (s : State) : State :=
  if 624 ≤ s.mti.toNat then refill (if s.mti = 625#10 then defaultSeed s else s) else s

/-- After it the cursor is the index of a word, so the read of `MT[MTI]` is in range (R21). -/
theorem refillIfDue_mti_lt (s : State) : (refillIfDue s).mti.toNat < 624 := by
  unfold refillIfDue
  split
  · simp [refill]
  · omega

/-- Read `MT[MTI]`, advance MTI by one, answer OK with the tempered word (R54). -/
def emitWord (s : State) (h : s.mti.toNat < 624) : State :=
  respond .ok 0x3#4 (some (temper s.mt[s.mti.toNat])) { s with mti := s.mti + 1#10 }

/-- NEXT_U32 (R54). -/
def execNextU32 (s : State) : Host.Outcome State Fault Refusal :=
  .next (emitWord (refillIfDue s) (refillIfDue_mti_lt s))

/-- READ_STATUS (R55): answer OK with the status word; change nothing. -/
def execReadStatus (s : State) : Host.Outcome State Fault Refusal :=
  .next (respond .ok 0x4#4 (some (statusWord s)) s)

end Sys2Proof.Machine
end

