-- ==== Sys2Proof/Machine/Dispatch.lean ====
section
/-! DEFINITION. Which meaning each command has: one arm per constructor of Instr. -/

namespace Sys2Proof.Machine

/-- Perform a decoded command (30_encoding.md R37: "perform OP with (LEN, P)"). -/
def exec (i : Instr) (s : State) : Host.Outcome State Fault Refusal :=
  match i with
  | .seedScalar seed => Sys2Proof.Machine.execSeedScalar seed s
  | .seedArray key => Sys2Proof.Machine.execSeedArray key s
  | .nextU32 => Sys2Proof.Machine.execNextU32 s
  | .readStatus => Sys2Proof.Machine.execReadStatus s

end Sys2Proof.Machine
end

