-- ==== Sys2Proof/Machine/Channel.lean ====
section
/-! DEFINITION. The command channel: framing, accepting and performing a packet, and the host's moves
(20_memory.md R28; 30_encoding.md R32, R37, R39; 70_reset_and_hazards.md R80, R84, R86). -/

namespace Sys2Proof.Machine

/-- A packet as it travels on the channel: its words in order, the last one marked (R32). -/
def markLast : Word → List Word → List ChannelWord
  | w, [] => [⟨w, true⟩]
  | w, w' :: ws => ⟨w, false⟩ :: markLast w' ws

/-- The channel words of a packet (R32). -/
def channelWords (p : Packet) : List ChannelWord := markLast p.header p.payload

/-- Split the channel after the first last-word mark: the words up to and with it, and the rest; none if no
word is marked (R32). -/
def splitAtLast : List ChannelWord → Option (List Word × List ChannelWord)
  | [] => none
  | c :: cs =>
    if c.last then some ([c.word], cs)
    else (splitAtLast cs).map fun r => (c.word :: r.1, r.2)

/-- Decode an accepted packet and perform it, or answer ILLEGAL_COMMAND with OP_ECHO = H[3:0] and no other
change (R37, R56). -/
def performPacket (p : Packet) (s : State) : Host.Outcome State Fault Refusal :=
  match decode p with
  | .instr i => exec i s
  | .illegal _ => .next (raiseError .illegalCommand (headerOp p.header) s)

/-- Perform the packet made of the words received: the first is the header (R32).  Every packet has a
header word, so the empty case does not arise. -/
def performWords (ws : List Word) (s : State) : Host.Outcome State Fault Refusal :=
  match ws with
  | [] => .next s
  | h :: p => performPacket ⟨h, p⟩ s

/-- The idle block with words on its channel: receive up to the first last-word mark and perform the whole
packet as one atomic step (R24, R28).  With no mark, receive what is there and wait for more (R86). -/
def receive (s : State) : Host.Outcome State Fault Refusal :=
  match splitAtLast s.channel with
  | some (ws, rest) => performWords (s.rx ++ ws) { s with rx := [], channel := rest }
  | none => .next { s with rx := s.rx ++ s.channel.map (·.word), channel := [] }

/-- The host's next move, when the block has nothing to do: with no move left nothing changes, so a block
held by its host stays as it is (R78, R86; U9; log 8). -/
def hostMove (s : State) : State :=
  match s.moves with
  | [] => s
  | .send ws :: ms => { s with moves := ms, channel := s.channel ++ ws }
  | .take :: ms => takeResponse { s with moves := ms }
  | .reset :: ms => resetInput { s with moves := ms }

/-- The block accepts words only when no response waits (R28); otherwise the host moves. -/
def stepBlock (s : State) : Host.Outcome State Fault Refusal :=
  if s.response = none ∧ s.channel ≠ [] then receive s else .next (hostMove s)

/-- `s` with a packet at the head of its command channel and the block idle, so that the next step accepts
and performs it. -/
def offerPacket (p : Packet) (s : State) : State :=
  { s with rx := [], response := none, channel := channelWords p ++ s.channel }

end Sys2Proof.Machine
end

