-- ==== Sys2Proof/Machine/Step.lean ====
section
/-! DEFINITION. The one step function, and how the host's next command is placed. -/

namespace Sys2Proof.Machine

/-- One step: the block accepts and performs a packet, or the host moves (20_memory.md R28;
70_reset_and_hazards.md R88; log 1, log 11). -/
def step (s : State) : Host.Outcome State Fault Refusal := stepBlock s

/-- `s` with the packet of an opcode-table row offered by the host, so that the next step performs it: the
block runs no stored program, and "each command arrives from the host as a packet" (10_state.md R13;
log 8). -/
def State.withFetchWord (s : State) (nbits w : Nat) : State := offerPacket (tablePacket nbits w) s

end Sys2Proof.Machine
end

