-- ==== Sys2Proof/Machine/Asm.lean ====
section
/-! DEFINITION. The assembler of 30_encoding.md R41.  It stands outside the block: it turns one line of text
into command packets.  White space around numerals and mnemonics, and the radix of a written data word,
are not settled by the rule; log 15 says what the model takes. -/

namespace Sys2Proof.Machine

/-- One assembly line, its numerals read as numbers (R41).  The last five are the host-side
pseudo-instructions, which expand to NEXT_U32 commands. -/
inductive AsmLine where
  | seedScalar (n : Nat)
  | seedArray (ns : List Nat)
  | nextU32
  | readStatus
  /-- `.packet`: a raw packet, unchecked. -/
  | packet (h : Nat) (ps : List Nat)
  | nextU31
  | nextReal1
  | nextReal2
  | nextReal3
  | nextRes53
  deriving DecidableEq, Repr

/-- A `<u32>`: a value outside [0, 2^32 − 1] is refused, not truncated (R41). -/
def asmWord (n : Nat) : Option Word := if n < 2 ^ 32 then some (BitVec.ofNat 32 n) else none

/-- A list of `<u32>`, refused if one of them is (R41). -/
def asmWords : List Nat → Option (List Word)
  | [] => some []
  | n :: ns => (asmWord n).bind fun w => (asmWords ns).map fun ws => w :: ws

/-- The packets a line stands for; none where the assembler refuses it (R41).  A SEED_ARRAY list longer
than 2^24 − 1 words is refused. -/
def assemble : AsmLine → Option (List Packet)
  | .seedScalar n => (asmWord n).map fun w => [encode (.seedScalar w)]
  | .seedArray ns =>
    if ns.length < 2 ^ 24 then (asmWords ns).map fun ws => [encode (.seedArray ws)] else none
  | .nextU32 => some [encode .nextU32]
  | .readStatus => some [encode .readStatus]
  | .packet h ps => (asmWord h).bind fun w => (asmWords ps).map fun ws => [⟨w, ws⟩]
  | .nextU31 => some [encode .nextU32]
  | .nextReal1 => some [encode .nextU32]
  | .nextReal2 => some [encode .nextU32]
  | .nextReal3 => some [encode .nextU32]
  | .nextRes53 => some [encode .nextU32, encode .nextU32]

/-- Blank characters between the tokens of a line (log 15). -/
def isBlank (c : Char) : Bool := c = ' ' || c = '\t' || c = '\r'

/-- A token without the blanks around it. -/
def trimBlanks (cs : List Char) : List Char :=
  ((cs.dropWhile isBlank).reverse.dropWhile isBlank).reverse

/-- The digits of a numeral, in the order of their values; those of base 10 are the first ten. -/
def numeralDigits : List Char := "0123456789abcdef".toList

/-- The value of a digit in base 10 or 16: its place among the base's digits; none for any other character.
Upper-case digits stand for the lower-case ones (log 15). -/
def digitValue (base : Nat) (c : Char) : Option Nat := (numeralDigits.take base).idxOf? c.toLower

/-- The value of a digit string, most significant digit first, after the digits read so far. -/
def digitsValue (base acc : Nat) : List Char → Option Nat
  | [] => some acc
  | c :: cs => (digitValue base c).bind fun d => digitsValue base (acc * base + d) cs

/-- A decimal numeral or a `0x` hexadecimal numeral (R41). -/
def numeral (cs : List Char) : Option Nat :=
  match trimBlanks cs with
  | [] => none
  | ['0', 'x'] => none
  | '0' :: 'x' :: ds => digitsValue 16 0 ds
  | ds => digitsValue 10 0 ds

/-- The pieces of a text between commas. -/
def splitCommas : List Char → List (List Char)
  | [] => [[]]
  | c :: cs =>
    if c = ',' then [] :: splitCommas cs
    else match splitCommas cs with
      | p :: ps => (c :: p) :: ps
      | [] => [[c]]

/-- The values of a list of pieces; none if one of them is no numeral. -/
def numerals : List (List Char) → Option (List Nat)
  | [] => some []
  | p :: ps => (numeral p).bind fun n => (numerals ps).map fun ns => n :: ns

/-- A comma-separated operand list; empty where nothing stands after the mnemonic (R41). -/
def operandList (cs : List Char) : Option (List Nat) :=
  if trimBlanks cs = [] then some [] else numerals (splitCommas cs)

/-- A line from its mnemonic and its operands (R41). -/
def lineOf (mnemonic : String) (ns : List Nat) : Option AsmLine :=
  if mnemonic = "SEED_SCALAR" then match ns with
    | [n] => some (.seedScalar n)
    | _ => none
  else if mnemonic = "SEED_ARRAY" then some (.seedArray ns)
  else if mnemonic = ".packet" then match ns with
    | h :: ps => some (.packet h ps)
    | [] => none
  else if ns ≠ [] then none
  else if mnemonic = "NEXT_U32" then some .nextU32
  else if mnemonic = "READ_STATUS" then some .readStatus
  else if mnemonic = "NEXT_U31" then some .nextU31
  else if mnemonic = "NEXT_REAL1" then some .nextReal1
  else if mnemonic = "NEXT_REAL2" then some .nextReal2
  else if mnemonic = "NEXT_REAL3" then some .nextReal3
  else if mnemonic = "NEXT_RES53" then some .nextRes53
  else none

/-- One line of assembly text: `;` starts a comment, and a line without a command stands for no packet
(R41).  None where the assembler refuses the line. -/
def assembleText (text : List Char) : Option (List Packet) :=
  let code := trimBlanks (text.takeWhile (· ≠ ';'))
  if code = [] then some []
  else
    let mnemonic := code.takeWhile (fun c => !isBlank c)
    ((operandList (code.drop mnemonic.length)).bind (lineOf (String.ofList mnemonic))).bind assemble

/-- How a response is written (R41).  R41's `<u32>` may be decimal or hexadecimal, and the spec's examples use
both; that the data word is written in decimal is a DESIGN CHOICE (log 15, safe). -/
def Response.text (r : Response) : String :=
  match r.res, r.data with
  | .ok, none => "-> OK"
  | .ok, some d => "-> OK " ++ Nat.repr d.toNat
  | .invalidArgument, _ => "-> INVALID_ARGUMENT"
  | .illegalCommand, _ => "-> ILLEGAL_COMMAND"

end Sys2Proof.Machine
end

