-- ==== Sys2Proof/Machine/Derived.lean ====
section
/-! DEFINITION. The host-side pseudo-instructions of 41_host_derived_outputs.md.  "None of this file is part
of the MT19937 core": they are functions a host applies to the words NEXT_U32 returns. -/

namespace Sys2Proof.Machine

/-- A binary64 bit pattern: sign, 11 exponent bits with bias 1023, 52 fraction bits (R61; G4). -/
abbrev Binary64 := BitVec 64

/-- A bit pattern of a finite value without a minus sign: bit 63 is 0 and the exponent field is not the
one of infinities and NaNs. -/
def Binary64.finiteNonneg (x : Binary64) : Bool :=
  !x.getLsbD 63 && decide ((x.extractLsb' 52 11).toNat < 2047)

/-- A `finiteNonneg` binary64 value as a fraction: numerator and denominator.  For any other bit pattern it
means nothing: sign and special exponents are not read (log 16). -/
def Binary64.fraction (x : Binary64) : Nat × Nat :=
  let e := (x.extractLsb' 52 11).toNat
  let f := (x.extractLsb' 0 52).toNat
  if e = 0 then (f, 2 ^ 1074)
  else if 1075 ≤ e then ((2 ^ 52 + f) * 2 ^ (e - 1075), 1)
  else (2 ^ 52 + f, 2 ^ (1075 - e))

/-- The value of a `finiteNonneg` bit pattern. -/
def Binary64.value (x : Binary64) : ℚ := (x.fraction.1 : ℚ) / (x.fraction.2 : ℚ)

/-- The scale s at which `num * 2^s / den` lies in [2^52, 2^53), for values below 2^53 (log 16). -/
def roundScale (num den : Nat) : Nat :=
  let s := 52 + Nat.log2 den - Nat.log2 num
  if num * 2 ^ s < den * 2 ^ 52 then s + 1 else s

/-- num / den to the nearest integer, ties to even. -/
def roundHalfEven (num den : Nat) : Nat :=
  let q := num / den
  let r := num % den
  if 2 * r < den then q else if den < 2 * r then q + 1 else q + q % 2

/-- `fl(num / den)`: the binary64 value nearest to a fraction, ties to even (R61; decision D18).  A
significand that rounds up to 2^53 carries into the exponent (log 16 for the range). -/
def fl (num den : Nat) : Binary64 :=
  if num = 0 then 0
  else
    let s := roundScale num den
    BitVec.ofNat 64 ((1075 - s) * 2 ^ 52 + roundHalfEven (num * 2 ^ s) den - 2 ^ 52)

/-- The binary64 value of a natural number; exact for a u32 (R61). -/
def Binary64.ofNat (n : Nat) : Binary64 := fl n 1

/-- The rounded product (R61). -/
def Binary64.mul (a b : Binary64) : Binary64 :=
  fl (a.fraction.1 * b.fraction.1) (a.fraction.2 * b.fraction.2)

/-- The rounded sum (R61). -/
def Binary64.add (a b : Binary64) : Binary64 :=
  fl (a.fraction.1 * b.fraction.2 + b.fraction.1 * a.fraction.2) (a.fraction.2 * b.fraction.2)

/-- `r >> 1` (R62). -/
def u31 (r : Word) : Word := r >>> 1

/-- `fl(r * C1)` with the rounded constant C1 = fl(1/4294967295) (R63). -/
def real1 (r : Word) : Binary64 := (Binary64.ofNat r.toNat).mul (fl 1 4294967295)

/-- `r * 2^-32` with C2 = fl(1/4294967296) (R64). -/
def real2 (r : Word) : Binary64 := (Binary64.ofNat r.toNat).mul (fl 1 4294967296)

/-- `(r + 0.5) * 2^-32` (R65). -/
def real3 (r : Word) : Binary64 := ((Binary64.ofNat r.toNat).add (fl 1 2)).mul (fl 1 4294967296)

/-- `(a * 67108864.0 + b) * 2^-53` with a = r1 >> 5 and b = r2 >> 6 (R66). -/
def res53 (r1 r2 : Word) : Binary64 :=
  (((Binary64.ofNat (r1 >>> 5).toNat).mul (Binary64.ofNat 67108864)).add
    (Binary64.ofNat (r2 >>> 6).toNat)).mul (fl 1 9007199254740992)

/-- One draw: the host has NEXT_U32 performed, takes the response and keeps its data word (R61). -/
def draw (s : State) : Option (Word × State) :=
  match exec .nextU32 s with
  | .next t => (t.response.bind (·.data)).map fun r => (r, takeResponse t)
  | .fault _ => none
  | .refused _ => none

/-- NEXT_U31 (R62). -/
def nextU31 (s : State) : Option (Word × State) := (draw s).map fun d => (u31 d.1, d.2)

/-- NEXT_REAL1 (R63). -/
def nextReal1 (s : State) : Option (Binary64 × State) := (draw s).map fun d => (real1 d.1, d.2)

/-- NEXT_REAL2 (R64). -/
def nextReal2 (s : State) : Option (Binary64 × State) := (draw s).map fun d => (real2 d.1, d.2)

/-- NEXT_REAL3 (R65). -/
def nextReal3 (s : State) : Option (Binary64 × State) := (draw s).map fun d => (real3 d.1, d.2)

/-- NEXT_RES53 (R66): two draws in order; the first supplies the high bits. -/
def nextRes53 (s : State) : Option (Binary64 × State) :=
  (draw s).bind fun d => (draw d.2).map fun e => (res53 d.1 e.1, e.2)

end Sys2Proof.Machine
end

