-- ==== Sys2Proof/Safety.lean ====
section
/-! DEFINITION. What a legal state is, and runs of commands, in the terms the statements use. -/

namespace Sys2Proof.Machine

/-- A response the block can give (30_encoding.md R34, R35; 60_exceptions.md R71): a data word exactly when
RES = OK and the operation is NEXT_U32 or READ_STATUS; OK only for one of the four operations;
INVALID_ARGUMENT only for SEED_ARRAY. -/
def Response.legal (r : Response) : Bool :=
  match r.res with
  | .ok =>
    ((r.opEcho = 0x1#4 || r.opEcho = 0x2#4) && r.data.isNone) ||
      ((r.opEcho = 0x3#4 || r.opEcho = 0x4#4) && r.data.isSome)
  | .invalidArgument => r.opEcho = 0x2#4 && r.data.isNone
  | .illegalCommand => r.data.isNone

/-- The invariant of the block: MTI ∈ [0, 625] (10_state.md R19); while a response waits, no packet is
partly received (20_memory.md R28); a waiting response is legal (30_encoding.md R34). -/
structure State.Inv (s : State) : Prop where
  cursor : s.mti.toNat ≤ 625
  oneAtATime : s.response ≠ none → s.rx = []
  response : ∀ r, s.response = some r → r.legal = true

/-- The three states of the block (10_state.md R10). -/
inductive Phase where
  | ready
  | exhausted
  | uninitialized
  deriving DecidableEq, Repr

/-- MTI alone decides the phase (R10).  The unreachable cursors 626 to 1023 count as exhausted (log 5). -/
def State.phase (s : State) : Phase :=
  if s.mti.toNat < 624 then .ready else if s.mti = 625#10 then .uninitialized else .exhausted

/-- The machine's run of `k` steps. -/
def runSteps (k : Nat) (s : State) : Host.Outcome State Fault Refusal := Host.Core.run Sys2Proof.core k s

/-- One command and the taking of its response (20_memory.md R28), as a function of the state. -/
def performAndTake (i : Instr) (s : State) : Option (Response × State) :=
  match exec i s with
  | .next t => t.response.map fun r => (r, takeResponse t)
  | .fault _ => none
  | .refused _ => none

/-- A host's session: commands performed one at a time, each response taken; the responses in order, and
the state left (20_memory.md R28, R29). -/
def session : List Instr → State → Option (List Response × State)
  | [], s => some ([], s)
  | i :: is, s =>
    (performAndTake i s).bind fun p => (session is p.2).map fun q => (p.1 :: q.1, q.2)

/-- The moves of a host that runs a session: send each command's packet, then take its response. -/
def sessionMoves (is : List Instr) : List HostMove :=
  is.flatMap fun i => [.send (channelWords (encode i)), .take]

/-- The block is idle and its channel is empty (20_memory.md R28). -/
def State.idle (s : State) : Prop := s.response = none ∧ s.rx = [] ∧ s.channel = []

/-- The index at which phase 2 starts for a key of the given length (40_core_commands.md R60). -/
def phase2Start (keyLength : Nat) : Nat := 1 + max 624 keyLength % 623

end Sys2Proof.Machine
end

