-- ==== Sys2Proof/Certificates/Slice0/Obligations.lean ====
section
/-! DEFINITION. The statements about the model, each with the rule of spec/ it formalises.  Where a statement
says `t = { s with … }`, the named fields are all that changes: that is the frame of the command. -/

open Sys2Proof Sys2Proof.Machine

/-! ### Packets: decoding, encoding, errors -/

/-- A command of each row of the opcode table, its words written out from 30_encoding.md R36. -/
def Obligations.SpecWordsDecodeToTheirCommands : Prop :=
  (∀ s : Word, decode ⟨0x00000001, [s]⟩ = .instr (.seedScalar s)) ∧
    decode ⟨0x00000402, [0x123, 0x234, 0x345, 0x456]⟩ = .instr (.seedArray [0x123, 0x234, 0x345, 0x456]) ∧
    decode ⟨0x00000002, []⟩ = .instr (.seedArray []) ∧
    decode ⟨0x00000003, []⟩ = .instr .nextU32 ∧
    decode ⟨0x00000004, []⟩ = .instr .readStatus

/-- Decoding the packet of a well-formed command gives the command back, with every operand
(30_encoding.md sections 1 to 3). -/
def Obligations.DecodeOfEncodeGivesTheCommand : Prop :=
  ∀ i : Instr, i.wellFormed = true → decode (encode i) = .instr i

/-- A packet that decodes is the one packet of its command, and the command is well-formed: each command
has one packet (30_encoding.md section 2). -/
def Obligations.DecodedPacketIsTheEncoding : Prop :=
  ∀ (p : Packet) (i : Instr), decode p = .instr i → i.wellFormed = true ∧ encode i = p

/-- R37: the decode procedure, check by check.  The last check, the empty key, is the one that
INVALID_ARGUMENT reports, and only for the packet 0x00000002 without payload. -/
def Obligations.PacketsAreCheckedInTheSpecsOrder : Prop :=
  ∀ (p : Packet) (s : State),
    let op := p.header.extractLsb' 0 4
    let rsv := p.header.extractLsb' 4 4
    let len := (p.header.extractLsb' 8 24).toNat
    let n := p.payload.length
    let illegal : Host.Outcome State Fault Refusal :=
      .next { s with response := some ⟨.illegalCommand, op, none⟩ }
    (performPacket p s =
      if rsv ≠ 0#4 then illegal
      else if op = 1#4 then
        if len ≠ 0 ∨ n ≠ 1 then illegal else exec (.seedScalar (p.payload.headD 0#32)) s
      else if op = 2#4 then
        if n ≠ len then illegal
        else if len = 0 then .next { s with response := some ⟨.invalidArgument, 2#4, none⟩ }
        else exec (.seedArray p.payload) s
      else if op = 3#4 then
        if len ≠ 0 ∨ n ≠ 0 then illegal else exec .nextU32 s
      else if op = 4#4 then
        if len ≠ 0 ∨ n ≠ 0 then illegal else exec .readStatus s
      else illegal) ∧
    ∀ t r, performPacket p s = .next t → t.response = some r → r.res = .invalidArgument →
      p = ⟨0x00000002#32, []⟩

/-- R40: exactly the malformed packets answer ILLEGAL_COMMAND, with OP_ECHO = H[3:0], and change no
state. -/
def Obligations.MalformedPacketsAnswerIllegalCommand : Prop :=
  ∀ (p : Packet) (s : State),
    let op := (headerOp p.header).toNat
    let len := (headerLen p.header).toNat
    let n := p.payload.length
    let malformed := (op = 0 ∨ 5 ≤ op) ∨ headerRsv p.header ≠ 0#4 ∨ (len ≠ 0 ∧ op ≠ 2) ∨
      (op = 1 ∧ n ≠ 1) ∨ (op = 2 ∧ n ≠ len) ∨ ((op = 3 ∨ op = 4) ∧ n ≠ 0)
    (malformed →
      performPacket p s = .next { s with response := some ⟨.illegalCommand, headerOp p.header, none⟩ }) ∧
    (¬malformed → ∀ t r, performPacket p s = .next t → t.response = some r → r.res ≠ .illegalCommand)

/-- R70: an accepted packet whose response is not OK changes nothing else; the packet is consumed, its one
response, without data, is there to be taken, and the next packet is then performed as if it had never
been. -/
def Obligations.ErrorsLeaveTheStateUnchanged : Prop :=
  ∀ (p : Packet) (s : State), ∃ t r, step (offerPacket p s) = .next t ∧ t.response = some r ∧
    (r.res ≠ .ok → r.data = none ∧ t = { s with rx := [], response := some r } ∧
      ∀ q : Packet, step (offerPacket q (takeResponse t)) = step (offerPacket q s))

/-- The fields of every response header and the result codes (30_encoding.md section 1; the reserved code
3 does not occur). -/
def Obligations.ResponseHeaderHasItsFields : Prop :=
  ∀ r : Response,
    r.header.extractLsb' 0 2 = r.res.code ∧ r.header.extractLsb' 2 2 = 0#2 ∧
      r.header.extractLsb' 4 4 = r.opEcho ∧ r.header.extractLsb' 8 24 = 0#24 ∧
      r.res.code = (match r.res with | .ok => 0#2 | .invalidArgument => 1#2 | .illegalCommand => 2#2)

/-- The assembler's lines, each of them: an in-range line of a command gives the one packet that decodes to
that command; a pseudo-instruction gives its NEXT_U32 commands; `.packet` gives its words unchecked; a value
outside u32, on any line that has operands, or a list longer than 2^24 − 1 is refused (30_encoding.md
section 6). -/
def Obligations.AssembledLinesDecodeToTheirCommands : Prop :=
  (∀ n, n < 2 ^ 32 → ∃ p, assemble (.seedScalar n) = some [p] ∧
      decode p = .instr (.seedScalar (BitVec.ofNat 32 n))) ∧
    (∀ n, 2 ^ 32 ≤ n → assemble (.seedScalar n) = none) ∧
    (∀ ns : List Nat, ns.length < 2 ^ 24 → (∀ n ∈ ns, n < 2 ^ 32) →
      ∃ p, assemble (.seedArray ns) = some [p] ∧ decode p = .instr (.seedArray (ns.map (BitVec.ofNat 32)))) ∧
    (∀ ns : List Nat, (2 ^ 24 ≤ ns.length ∨ ∃ n ∈ ns, 2 ^ 32 ≤ n) → assemble (.seedArray ns) = none) ∧
    (∃ p, assemble .nextU32 = some [p] ∧ decode p = .instr .nextU32) ∧
    (∃ p, assemble .readStatus = some [p] ∧ decode p = .instr .readStatus) ∧
    (∀ l ∈ [AsmLine.nextU31, .nextReal1, .nextReal2, .nextReal3],
      ∃ p, assemble l = some [p] ∧ decode p = .instr .nextU32) ∧
    (∃ p, assemble .nextRes53 = some [p, p] ∧ decode p = .instr .nextU32) ∧
    (∀ (h : Nat) (ps : List Nat), (∀ n ∈ h :: ps, n < 2 ^ 32) →
      assemble (.packet h ps) = some [⟨BitVec.ofNat 32 h, ps.map (BitVec.ofNat 32)⟩]) ∧
    ∀ (h : Nat) (ps : List Nat), (∃ n ∈ h :: ps, 2 ^ 32 ≤ n) → assemble (.packet h ps) = none

/-! ### Scalar seeding -/

/-- R42: the seeded buffer follows the recurrence and forgets the buffer it overwrites. -/
def Obligations.SeedFillFollowsTheRecurrence : Prop :=
  ∀ (mt : Buffer) (s : Word),
    (seedFill mt s)[0] = s ∧
      (∀ i (h : i + 1 < 624), (seedFill mt s)[i + 1] =
        1812433253#32 * ((seedFill mt s)[i] ^^^ ((seedFill mt s)[i] >>> 30)) + BitVec.ofNat 32 (i + 1)) ∧
      ∀ mt' : Buffer, seedFill mt' s = seedFill mt s

/-- R43: SEED_SCALAR completes in every state: the buffer follows the recurrence from the seed, MTI is
624, the answer is OK, and nothing else changes.  Its packet is 0x00000001 with the seed; any other packet
with OP = 1 answers ILLEGAL_COMMAND and changes nothing. -/
def Obligations.SeedScalarFillsAndExhausts : Prop :=
  ∀ s : State,
    (∀ seed : Word, ∃ t, exec (.seedScalar seed) s = .next t ∧
      performPacket ⟨0x00000001#32, [seed]⟩ s = .next t ∧
      t.mt[0] = seed ∧
      (∀ i (h : i + 1 < 624),
        t.mt[i + 1] = 1812433253#32 * (t.mt[i] ^^^ (t.mt[i] >>> 30)) + BitVec.ofNat 32 (i + 1)) ∧
      t = { s with mt := t.mt, mti := 624#10, response := some ⟨.ok, 1#4, none⟩ }) ∧
    ∀ p : Packet, headerOp p.header = 1#4 → (∀ seed, p ≠ ⟨0x00000001#32, [seed]⟩) →
      performPacket p s = .next { s with response := some ⟨.illegalCommand, 1#4, none⟩ }

/-! ### Array seeding -/

/-- R44, R45: phase 1 starts from SeedFill(19650218), i = 1, j = 0.  After n iterations i = 1 + n mod 623
and j = n mod key_length; the next one writes MT[i] from MT[i], MT[i-1] and key[j] + j, and at i = 623
copies it into MT[0].  Phase 1 runs max(624, key_length) iterations. -/
def Obligations.Phase1MixesTheKeyIn : Prop :=
  ∀ (mt : Buffer) (key : List Word) (h : 0 < key.length),
    (phase1Start mt key h).walk.mt = seedFill mt 19650218#32 ∧
    phase1 mt key h = (phase1Step key)^[max 624 key.length] (phase1Start mt key h) ∧
    ∀ n : Nat,
      let m := (phase1Step key)^[n] (phase1Start mt key h)
      let m' := (phase1Step key)^[n + 1] (phase1Start mt key h)
      let b := m.walk.mt
      let i := n % 623 + 1
      let x := b[n % 623]'(by omega)
      let v := (b[n % 623 + 1]'(by omega) ^^^ ((x ^^^ (x >>> 30)) * 1664525#32)) +
        key[n % key.length]'(Nat.mod_lt n h) + BitVec.ofNat 32 (n % key.length)
      m.walk.i.val = i ∧ m.j.val = n % key.length ∧
        m'.walk.mt = if i = 623 then (b.set 623 v).set 0 v else b.set i v (by omega)

/-- R46: from any i in 1..623 phase 2 visits the indices cyclically for 623 iterations; each writes MT[i]
from MT[i] and MT[i-1] minus i, copies MT[623] into MT[0] at the wrap, and under SOURCE_COMPAT then writes
0x80000000 into MT[0]. -/
def Obligations.Phase2WalksTheBuffer : Prop :=
  ∀ (mode : Phase2Mode) (w : Walk), 1 ≤ w.i.val →
    phase2 mode w = (phase2Step mode)^[623] w ∧
    ∀ n : Nat,
      let u := (phase2Step mode)^[n] w
      let u' := (phase2Step mode)^[n + 1] w
      let k := (w.i.val - 1 + n) % 623
      let x := u.mt[k]'(by omega)
      let v := (u.mt[k + 1]'(by omega) ^^^ ((x ^^^ (x >>> 30)) * 1566083941#32)) - BitVec.ofNat 32 (k + 1)
      let b := if k + 1 = 623 then (u.mt.set 623 v).set 0 v else u.mt.set (k + 1) v (by omega)
      u.i.val = k + 1 ∧
        u'.mt = (match mode with | .canonical => b | .sourceCompat => b.set 0 0x80000000#32)

/-- R47: after both phases MT[0] is forced to 0x80000000 and no other word changes; under SOURCE_COMPAT
that last write changes nothing. -/
def Obligations.ArrayMixForcesTheFirstWord : Prop :=
  ∀ (mode : Phase2Mode) (mt : Buffer) (key : List Word) (h : 0 < key.length),
    let b := (phase2 mode (phase1 mt key h).walk).mt
    (arrayMix mode mt key h)[0] = 0x80000000#32 ∧
      (∀ i (hi : i < 624), i ≠ 0 → (arrayMix mode mt key h)[i] = b[i]) ∧
      (mode = .sourceCompat → arrayMix mode mt key h = b)

/-- R48: SEED_ARRAY completes in every state.  A non-empty key is mixed in and MTI becomes 624; the empty
key answers INVALID_ARGUMENT; nothing else changes.  Its packet has OP = 2, RSV = 0 and LEN payload words;
any other packet with OP = 2 answers ILLEGAL_COMMAND and changes nothing. -/
def Obligations.SeedArrayMixesOrRefusesTheEmptyKey : Prop :=
  ∀ s : State,
    (∀ key : List Word, ∃ t, exec (.seedArray key) s = .next t ∧
      (∀ h : 0 < key.length, t =
        { s with
          mt := arrayMix s.cfg.seedPhase2Mode s.mt key h
          mti := 624#10
          response := some ⟨.ok, 2#4, none⟩ }) ∧
      (key = [] → t = { s with response := some ⟨.invalidArgument, 2#4, none⟩ })) ∧
    ∀ p : Packet, headerOp p.header = 2#4 →
      performPacket p s =
        if headerRsv p.header = 0#4 ∧ p.payload.length = (headerLen p.header).toNat then
          exec (.seedArray p.payload) s
        else .next { s with response := some ⟨.illegalCommand, 2#4, none⟩ }

/-- When CANONICAL and SOURCE_COMPAT seed alike (40_core_commands.md section 6): with i0 the index at which
phase 2 starts, always if i0 = 1; otherwise exactly when MT[623] is 0x80000000 just before phase 2's wrap,
and where they differ they differ in MT[1] and agree in MT[0] and MT[i0..623].  Where SOURCE_COMPAT's overwrite stands in an
iteration is the spec's decision D8. -/
def Obligations.SeedModesAgreeExactlyWhenTheSpecSays : Prop :=
  ∀ (mt : Buffer) (key : List Word) (h : 0 < key.length),
    let i0 := phase2Start key.length
    let a := arrayMix .canonical mt key h
    let b := arrayMix .sourceCompat mt key h
    let atWrap := (phase2Step .canonical)^[624 - i0] (phase1 mt key h).walk
    (i0 = 1 ↔ 1246 ≤ key.length ∧ key.length % 623 = 0) ∧
      (i0 = 1 → a = b) ∧
      (i0 ≠ 1 → (a ≠ b ↔ atWrap.mt[623] ≠ 0x80000000#32) ∧ (a ≠ b → a[1] ≠ b[1]) ∧
        ∀ i (hi : i < 624), i = 0 ∨ i0 ≤ i → a[i] = b[i])

/-! ### The twist engine and the tempering tree -/

/-- R49: TwistWord(k) rewrites word k alone, from words k, (k+1) mod 624 and (k+397) mod 624. -/
def Obligations.TwistWordRewritesOneWord : Prop :=
  ∀ (mt : Buffer) (k : Fin 624),
    let a := mt[k]
    let b := mt[(k.val + 1) % 624]'(Nat.mod_lt _ (by decide))
    let c := mt[(k.val + 397) % 624]'(Nat.mod_lt _ (by decide))
    let y := (a &&& 0x80000000#32) ||| (b &&& 0x7fffffff#32)
    (twistWord mt k)[k] = c ^^^ (y >>> 1) ^^^ (if y.getLsbD 0 = true then 0x9908b0df#32 else 0#32) ∧
      ∀ i (hi : i < 624), i ≠ k.val → (twistWord mt k)[i] = mt[i]

/-- The bits of a twisted word (40_core_commands.md section 3, the table by bit). -/
def Obligations.TwistWordBitByBit : Prop :=
  ∀ (mt : Buffer) (k : Fin 624),
    let old := mt[k]
    let a := mt[(k.val + 1) % 624]'(Nat.mod_lt _ (by decide))
    let c := mt[(k.val + 397) % 624]'(Nat.mod_lt _ (by decide))
    let low := a.getLsbD 0
    let new := (twistWord mt k)[k]
    new.getLsbD 31 = (c.getLsbD 31 ^^ (low && matrixA.getLsbD 31)) ∧
      new.getLsbD 30 = (c.getLsbD 30 ^^ old.getLsbD 31 ^^ (low && matrixA.getLsbD 30)) ∧
      ∀ b, b ≤ 29 → new.getLsbD b = (c.getLsbD b ^^ a.getLsbD (b + 1) ^^ (low && matrixA.getLsbD b))

/-- What a whole refill computes, range by range (40_core_commands.md section 3): words below 227 come from
old words, words 227 to 622 read a word already rewritten, and word 623 reads two.  The in-place increasing
order is the spec's decision D14. -/
def Obligations.TwistReadsOldAndNewWordsByRange : Prop :=
  ∀ mt : Buffer,
    let b := twist mt
    (∀ k (h : k < 227), b[k] = twistCombine mt[k] mt[k + 1] mt[k + 397]) ∧
      (∀ k (_ : 227 ≤ k) (h : k < 623), b[k] = twistCombine mt[k] mt[k + 1] (b[k - 227]'(by omega))) ∧
      b[623] = twistCombine mt[623] b[0] b[396]

/-- R51: the four tempering steps, each on the y of the step before. -/
def Obligations.TemperTakesItsFourSteps : Prop :=
  ∀ y0 y1 y2 y3 : Word, y1 = y0 ^^^ (y0 >>> 11) → y2 = y1 ^^^ ((y1 <<< 7) &&& 0x9d2c5680#32) →
    y3 = y2 ^^^ ((y2 <<< 15) &&& 0xefc60000#32) → temper y0 = y3 ^^^ (y3 >>> 18)

/-- Tempering is linear over GF(2) (40_core_commands.md section 4). -/
def Obligations.TemperIsLinear : Prop :=
  temper 0#32 = 0#32 ∧ ∀ a b : Word, temper (a ^^^ b) = temper a ^^^ temper b

/-- Tempering loses nothing: it is a bijection of the words (40_core_commands.md section 4). -/
def Obligations.TemperIsABijection : Prop :=
  Function.Bijective temper

/-- The tempering XOR tree (40_core_commands.md section 4, the table): output bit b is the XOR of the input
bits of row b. -/
def Obligations.TemperIsTheXorTree : Prop :=
  let rows : List (List Nat) :=
    [[29, 22, 18, 14, 3, 0], [30, 23, 19, 1], [31, 20, 13, 2], [25, 21, 3],
     [22, 18, 15, 11, 7, 4, 0], [23, 19, 16, 8, 5], [28, 24, 20, 13, 9, 6, 2],
     [25, 21, 18, 14, 11, 10, 7, 3, 0]] ++
    [[30, 26, 22, 11, 8], [31, 27, 23, 16, 13, 12, 9, 5, 2], [28, 14, 10, 3],
     [29, 25, 22, 18, 14, 11, 7], [30, 26, 23, 16, 15, 12, 5], [31, 27, 16, 13], [25, 18, 14, 7],
     [26, 15]] ++
    [[27, 16], [28, 17, 13, 2], [29, 22, 18, 14, 11, 3], [30, 23, 19, 12], [31, 20], [25, 21, 14],
     [22, 18, 11, 7, 0], [23, 19, 8]] ++
    [[28, 24, 20, 17, 13, 9, 2], [25, 21, 14, 10, 3], [30, 26, 22, 19, 11], [31, 27, 23, 20, 16, 12, 5],
     [28, 21], [29, 25, 18, 14, 7], [30, 26, 15], [31, 27, 24, 16]]
  ∀ (y : Word) (b : Nat) (row : List Nat), rows[b]? = some row →
    (temper y).getLsbD b = row.foldl (fun acc a => acc ^^ y.getLsbD a) false

/-! ### NEXT_U32 and READ_STATUS -/

/-- R54 (with the default seeding of R53): NEXT_U32 completes in every state.  Ready: it tempers MT[MTI]
and advances MTI.  Exhausted: it refills first.  Uninitialized: it default-seeds, then refills.  Nothing
else changes.  Its packet is 0x00000003 alone; any other packet with OP = 3 answers ILLEGAL_COMMAND and
changes nothing. -/
def Obligations.NextU32AnswersTheNextTemperedWord : Prop :=
  ∀ s : State,
    (∃ t, exec .nextU32 s = .next t ∧ performPacket ⟨0x00000003#32, []⟩ s = .next t ∧
      (∀ h : s.mti.toNat < 624, t =
        { s with mti := s.mti + 1#10, response := some ⟨.ok, 3#4, some (temper s.mt[s.mti.toNat])⟩ }) ∧
      (s.mti = 624#10 → t =
        { s with mt := twist s.mt, mti := 1#10, response := some ⟨.ok, 3#4, some (temper (twist s.mt)[0])⟩ }) ∧
      (s.mti = 625#10 → t =
        { s with
          mt := twist (seedFill s.mt 5489#32)
          mti := 1#10
          response := some ⟨.ok, 3#4, some (temper (twist (seedFill s.mt 5489#32))[0])⟩ })) ∧
    ∀ p : Packet, headerOp p.header = 3#4 → p ≠ ⟨0x00000003#32, []⟩ →
      performPacket p s = .next { s with response := some ⟨.illegalCommand, 3#4, none⟩ }

/-- R55: READ_STATUS completes in every state, answers the status word, and changes nothing else.  Its
packet is 0x00000004 alone; any other packet with OP = 4 answers ILLEGAL_COMMAND and changes nothing. -/
def Obligations.ReadStatusAnswersTheStatusWord : Prop :=
  ∀ s : State,
    let mode : Word := match s.cfg.seedPhase2Mode with | .canonical => 0#32 | .sourceCompat => 1#32
    let t := { s with response := some ⟨.ok, 4#4, some (s.mti.setWidth 32 ||| (mode <<< 16))⟩ }
    exec .readStatus s = .next t ∧ performPacket ⟨0x00000004#32, []⟩ s = .next t ∧
      ∀ p : Packet, headerOp p.header = 4#4 → p ≠ ⟨0x00000004#32, []⟩ →
        performPacket p s = .next { s with response := some ⟨.illegalCommand, 4#4, none⟩ }

/-- R15: READ_STATUS answers the status word, built from the state of that moment; its fields, and its
values after reset for both builds and any buffer contents. -/
def Obligations.StatusWordHasItsFields : Prop :=
  (∀ s : State,
    let mode : Word := match s.cfg.seedPhase2Mode with | .canonical => 0#32 | .sourceCompat => 1#32
    exec .readStatus s = .next { s with response := some ⟨.ok, 4#4, some (statusWord s)⟩ } ∧
      statusWord s = s.mti.setWidth 32 ||| (mode <<< 16) ∧
      (statusWord s).extractLsb' 0 10 = s.mti ∧ (statusWord s).extractLsb' 10 6 = 0#6 ∧
      (statusWord s).getLsbD 16 = decide (s.cfg.seedPhase2Mode = .sourceCompat) ∧
      (statusWord s).extractLsb' 17 15 = 0#15) ∧
    ∀ mt : Buffer, statusWord (State.resetOf ⟨.canonical⟩ mt) = 0x00000271#32 ∧
      statusWord (State.resetOf ⟨.sourceCompat⟩ mt) = 0x00010271#32

/-! ### What commands do to the state, as a whole -/

/-- The frame of every command: it answers one response, with its own operation echoed, and touches the
buffer, the cursor and the response alone (10_state.md R8, R9, R14; 20_memory.md section 5); the response is one that R34 and R35
allow (30_encoding.md section 1). -/
def Obligations.CommandsTouchBufferCursorAndResponseOnly : Prop :=
  ∀ (i : Instr) (s : State), ∃ t r, exec i s = .next t ∧
    t = { s with mt := t.mt, mti := t.mti, response := some r } ∧ r.opEcho = i.opcode ∧ r.legal = true

/-- R14: no result code is stored, so no command can read an earlier command's result. -/
def Obligations.NoCommandReadsAnEarlierResult : Prop :=
  ∀ (i : Instr) (s : State) (r : Option Response), exec i { s with response := r } = exec i s

/-- R10: MTI alone decides the phase, and how the commands move the block between Ready, Exhausted and
Uninitialized. -/
def Obligations.PhaseChangesAsTheSpecSays : Prop :=
  ∀ s : State, s.mti.toNat ≤ 625 →
    ((s.phase = .ready ↔ s.mti.toNat ≤ 623) ∧ (s.phase = .exhausted ↔ s.mti.toNat = 624) ∧
      (s.phase = .uninitialized ↔ s.mti.toNat = 625)) ∧
    (∀ t, exec .nextU32 s = .next t →
      t.phase = (if s.mti.toNat = 623 then .exhausted else .ready) ∧
        (s.phase ≠ .ready → t.mti = 1#10)) ∧
    (∀ seed t, exec (.seedScalar seed) s = .next t → t.phase = .exhausted) ∧
    (∀ key t, key ≠ [] → exec (.seedArray key) s = .next t → t.phase = .exhausted) ∧
    (∀ (p : Packet) t r, performPacket p s = .next t → t.response = some r → r.res ≠ .ok →
      t.mt = s.mt ∧ t.mti = s.mti ∧ t.phase = s.phase) ∧
    (∀ t, exec .readStatus s = .next t → t.mt = s.mt ∧ t.mti = s.mti ∧ t.phase = s.phase)

/-- Repeating a seed command or READ_STATUS changes nothing more, and NEXT_U32 always moves the cursor
(20_memory.md section 3). -/
def Obligations.OnlyNextU32IsADestructiveRead : Prop :=
  (∀ (i : Instr) (s : State), i ≠ .nextU32 → ∃ t, exec i s = .next t ∧ exec i t = .next t) ∧
    ∀ (s t : State), exec .nextU32 s = .next t → t.mti ≠ s.mti

/-- After a scalar seed the answers depend on the seed alone: two blocks in any states, of any builds, give
the same responses to the same NEXT_U32 and SEED_SCALAR commands (40_core_commands.md section 6). -/
def Obligations.ScalarSeedErasesHistory : Prop :=
  ∀ (seed : Word) (is : List Instr) (s s' : State),
    (∀ i ∈ is, i = .nextU32 ∨ ∃ x, i = .seedScalar x) →
    ∃ rs t t', session (.seedScalar seed :: is) s = some (rs, t) ∧
      session (.seedScalar seed :: is) s' = some (rs, t') ∧ t'.mt = t.mt ∧ t'.mti = t.mti

/-- After an array seed the answers to every further command depend on the key and the mode alone
(40_core_commands.md section 6). -/
def Obligations.ArraySeedErasesHistory : Prop :=
  ∀ (key : List Word) (is : List Instr) (s s' : State), key ≠ [] → s'.cfg = s.cfg →
    ∃ rs t t', session (.seedArray key :: is) s = some (rs, t) ∧
      session (.seedArray key :: is) s' = some (rs, t') ∧ t'.mt = t.mt ∧ t'.mti = t.mti

/-- The stream after a seed (40_core_commands.md section 6): output j is the tempered word j mod 624 of the
buffer refilled j / 624 + 1 times, so the refills fall exactly on the calls 1, 625, 1249, …, and after n
calls MTI is (n − 1) mod 624 + 1. -/
def Obligations.StreamAfterASeedRefillsEvery624Calls : Prop :=
  ∀ (s : State) (n : Nat), s.mti = 624#10 →
    ∃ rs t, session (List.replicate n .nextU32) s = some (rs, t) ∧ rs.length = n ∧
      (∀ j, j < n → rs[j]? =
        some ⟨.ok, 3#4, some (temper ((twist^[j / 624 + 1] s.mt)[j % 624]'(Nat.mod_lt j (by decide))))⟩) ∧
      (0 < n → t.mti.toNat = (n - 1) % 624 + 1 ∧ t.mt = twist^[(n - 1) / 624 + 1] s.mt)

/-- From the uninitialized state NEXT_U32 commands answer, and leave the block, as after SEED_SCALAR 5489
(40_core_commands.md section 6). -/
def Obligations.UninitializedStreamIsThatOfSeed5489 : Prop :=
  ∀ (s : State) (n : Nat), s.mti = 625#10 →
    ∃ r rs t t', session (List.replicate n .nextU32) s = some (rs, t) ∧
      session (.seedScalar 5489#32 :: List.replicate n .nextU32) s = some (r :: rs, t') ∧ (0 < n → t' = t)

/-! ### The channel, the host and reset -/

/-- A step runs the decoded command: with the block idle and a packet at the head of the channel, the step
is `exec` of the command the packet decodes to, at the state with the packet taken off the channel
(20_memory.md section 5). -/
def Obligations.StepPerformsTheDecodedCommand : Prop :=
  ∀ (s : State) (p : Packet) (rest : List ChannelWord) (i : Instr), s.response = none → s.rx = [] →
    s.channel = channelWords p ++ rest → decode p = .instr i →
      step s = exec i { s with channel := rest }

/-- A packet may arrive in pieces: words without a last-word mark are received and held, and the step that
receives the marked word performs the whole packet, made of the words held and of those up to the marked one
(30_encoding.md section 1; 70_reset_and_hazards.md section 3).  That one step receives all the words there
are, up to the first mark, is the model's choice (logs 1 and 10). -/
def Obligations.PacketMayArriveInPieces : Prop :=
  (∀ s : State, s.response = none → s.channel ≠ [] → (∀ c ∈ s.channel, c.last = false) →
      step s = .next { s with rx := s.rx ++ s.channel.map (·.word), channel := [] }) ∧
    ∀ (s : State) (us rest : List ChannelWord) (w h : Word) (ps : List Word), s.response = none →
      (∀ c ∈ us, c.last = false) → s.channel = us ++ ⟨w, true⟩ :: rest →
      s.rx ++ us.map (·.word) ++ [w] = h :: ps →
        step s = performPacket ⟨h, ps⟩ { s with rx := [], channel := rest }

/-- Every step answers a next state: no command, packet or move ends in a fault or a refusal
(60_exceptions.md sections 1 and 2). -/
def Obligations.EveryStepAnswersANextState : Prop :=
  ∀ s : State, ∃ t, step s = .next t

/-- Every step keeps the invariant: MTI ∈ [0, 625], one packet at a time, legal responses
(10_state.md section 7; 20_memory.md section 5; 30_encoding.md section 1). -/
def Obligations.StepKeepsTheInvariant : Prop :=
  ∀ s t : State, s.Inv → step s = .next t → t.Inv

/-- The invariant holds in the reset state of every build, whatever the buffer holds, and in
`State.reset`. -/
def Obligations.ResetStateMeetsTheInvariant : Prop :=
  (∀ (cfg : Config) (mt : Buffer), (State.resetOf cfg mt).Inv) ∧ State.reset.Inv

/-- The cursor: only reset brings it back to 625, no command performed with result OK but READ_STATUS
leaves it there, and after NEXT_U32 it lies in [1, 624] (10_state.md section 7). -/
def Obligations.OnlyResetUninitializesTheBlock : Prop :=
  (∀ s t : State, step s = .next t → t.mti = 625#10 → s.mti = 625#10 ∨ s.moves = .reset :: t.moves) ∧
    (∀ (i : Instr) (s t : State) (r : Response), exec i s = .next t → t.response = some r → r.res = .ok →
      i ≠ .readStatus → t.mti ≠ 625#10) ∧
    ∀ s t : State, exec .nextU32 s = .next t → 1 ≤ t.mti.toNat ∧ t.mti.toNat ≤ 624

/-- No step changes the build, not even the reset input (10_state.md section 4; 70_reset_and_hazards.md
section 1). -/
def Obligations.NoStepChangesTheBuild : Prop :=
  ∀ s t : State, step s = .next t → t.cfg = s.cfg

/-- The contents of the buffer in the uninitialized state are unobservable (10_state.md section 7): over
any number of steps, with any packets and any host moves, two runs that start from different contents
agree in everything but those contents, and in those too once the block has left the uninitialized
state. -/
def Obligations.UninitializedContentsAreUnobservable : Prop :=
  ∀ (s : State) (mt : Buffer) (k : Nat), s.mti = 625#10 →
    ∃ t t', runSteps k s = .next t ∧ runSteps k { s with mt := mt } = .next t' ∧
      t' = { t with mt := t'.mt } ∧ (t.mti ≠ 625#10 → t' = t)

/-- R86: a response that is never taken, and a packet whose last word never comes, hold the block: until
the host acts, or resets it, no command is performed, however long the run. -/
def Obligations.HostCanHoldTheBlock : Prop :=
  (∀ (s : State) (n : Nat), s.response ≠ none → (∀ m ∈ s.moves, m ≠ .take ∧ m ≠ .reset) →
    ∃ t, runSteps n s = .next t ∧ t.mt = s.mt ∧ t.mti = s.mti ∧ t.rx = s.rx ∧ t.response = s.response) ∧
    ∀ (s : State) (n : Nat), s.response = none → (∀ c ∈ s.channel, c.last = false) →
      (∀ m ∈ s.moves, m ≠ .reset ∧ ∀ ws, m = .send ws → ∀ c ∈ ws, c.last = false) →
      ∃ t, runSteps n s = .next t ∧ t.mt = s.mt ∧ t.mti = s.mti ∧ t.response = none ∧ s.rx <+: t.rx

/-- The reset input (70_reset_and_hazards.md section 1): when it is the host's move, any partly received
packet and any waiting response are dropped and MTI is 625.  The state of the buffer is not stated: it is
unspecified.  That the host moves only when the block has no words to receive is the model's choice
(log 11). -/
def Obligations.ResetMoveEntersTheResetState : Prop :=
  ∀ (s : State) (ms : List HostMove), s.moves = .reset :: ms → (s.response ≠ none ∨ s.channel = []) →
    ∃ t, step s = .next t ∧ t = { State.resetOf s.cfg t.mt with channel := s.channel, moves := ms, draws := t.draws }

/-- Commands are performed one at a time and in order (20_memory.md section 5): an idle machine whose host
sends each packet and takes each response runs exactly the session, and the response waiting after each
command is the session's.  That a command takes three steps (the host sends, the block performs, the host
takes) is the model's choice (logs 1 and 8). -/
def Obligations.StepsOfAHostAreTheSession : Prop :=
  ∀ (is : List Instr) (ms : List HostMove) (s : State), (∀ i ∈ is, i.wellFormed = true) → s.idle →
    s.moves = sessionMoves is ++ ms →
    ∃ rs t, session is s = some (rs, t) ∧ runSteps (3 * is.length) s = .next { t with moves := ms } ∧
      ∀ k, k < is.length → ∃ u, runSteps (3 * k + 2) s = .next u ∧ u.response = rs[k]?

/-! ### The host's derived outputs -/

/-- Each derived output consumes its draws in command order (41_host_derived_outputs.md): one, or two for
NEXT_RES53, each the data word of a NEXT_U32. -/
def Obligations.DerivedOutputsConsumeTheirDraws : Prop :=
  ∀ s : State, ∃ r t r' t', draw s = some (r, t) ∧ draw t = some (r', t') ∧
    exec .nextU32 s = .next { t with response := some ⟨.ok, 3#4, some r⟩ } ∧ t.response = none ∧
    nextU31 s = some (u31 r, t) ∧ nextReal1 s = some (real1 r, t) ∧ nextReal2 s = some (real2 r, t) ∧
    nextReal3 s = some (real3 r, t) ∧ nextRes53 s = some (res53 r r', t')

/-- R62: NEXT_U31 takes one draw and gives it shifted right by one, in [0, 2^31 − 1]. -/
def Obligations.NextU31HalvesTheDraw : Prop :=
  ∀ (s t : State) (r : Word), draw s = some (r, t) →
    ∃ v, nextU31 s = some (v, t) ∧ v.toNat = r.toNat / 2 ∧ v.toNat ≤ 2 ^ 31 - 1

/-- `fl` rounds to nearest, ties to even (41_host_derived_outputs.md; decision D18): in the range of every
operation of the derived outputs, up to 2^53, its result is finite and not negative, no binary64 value is
nearer, and where another is as near, the result's significand is even. -/
def Obligations.RoundingIsToNearest : Prop :=
  ∀ num den : Nat, 0 < num → 0 < den → num < den * 2 ^ 53 → den ≤ num * 2 ^ 1000 →
    let q := (num : ℚ) / den
    let x := fl num den
    x.finiteNonneg = true ∧
      ∀ y : Binary64, y.finiteNonneg = true →
        |x.value - q| ≤ |y.value - q| ∧
          (y.value ≠ x.value → |y.value - q| = |x.value - q| → x.getLsbD 0 = false)

/-- R63: NEXT_REAL1 takes one draw r and gives the product of r and C1 = 2^-32 + 2^-64, rounded once, in
[0, 1]; C1 is the rounded 1/4294967295, and both ends are reached. -/
def Obligations.NextReal1RoundsTheProduct : Prop :=
  (∀ (s t : State) (r : Word), draw s = some (r, t) →
      ∃ x, nextReal1 s = some (x, t) ∧ x = fl (r.toNat * (2 ^ 32 + 1)) (2 ^ 64) ∧
        x.finiteNonneg = true ∧ 0 ≤ x.value ∧ x.value ≤ 1) ∧
    (∀ r : Word, real1 r = fl (r.toNat * (2 ^ 32 + 1)) (2 ^ 64)) ∧
    fl 1 4294967295 = 0x3df0000000100000#64 ∧
      Binary64.value 0x3df0000000100000#64 = 1 / 2 ^ 32 + 1 / 2 ^ 64 ∧
    real1 0#32 = 0#64 ∧ (real1 0xffffffff#32).value = 1 ∧ real1 0x80000000#32 = 0x3fe0000000100000#64

/-- R64: NEXT_REAL2 takes one draw r and gives exactly r * 2^-32, in [0, 1). -/
def Obligations.NextReal2IsExact : Prop :=
  ∀ (s t : State) (r : Word), draw s = some (r, t) →
    ∃ x, nextReal2 s = some (x, t) ∧ x.finiteNonneg = true ∧ x.value = (r.toNat : ℚ) / 2 ^ 32 ∧
      0 ≤ x.value ∧ x.value < 1

/-- R65: NEXT_REAL3 takes one draw r and gives exactly (r + 0.5) * 2^-32, in (0, 1). -/
def Obligations.NextReal3IsExact : Prop :=
  ∀ (s t : State) (r : Word), draw s = some (r, t) →
    ∃ x, nextReal3 s = some (x, t) ∧ x.finiteNonneg = true ∧
      x.value = ((r.toNat : ℚ) + 1 / 2) / 2 ^ 32 ∧ 0 < x.value ∧ x.value < 1

/-- R66: NEXT_RES53 takes two draws r1, r2 in order and gives exactly (a * 2^26 + b) * 2^-53 with
a = r1 >> 5 and b = r2 >> 6, in [0, 1). -/
def Obligations.NextRes53IsExact : Prop :=
  ∀ (s t t' : State) (r1 r2 : Word), draw s = some (r1, t) → draw t = some (r2, t') →
    ∃ x, nextRes53 s = some (x, t') ∧ x.finiteNonneg = true ∧
      x.value = (((r1.toNat / 32 : Nat) : ℚ) * 2 ^ 26 + ((r2.toNat / 64 : Nat) : ℚ)) / 2 ^ 53 ∧
      0 ≤ x.value ∧ x.value < 1

/-- The ranges of the real-valued outputs (41_host_derived_outputs.md): [0, 1], [0, 1), (0, 1), [0, 1).  Each
is finite, with the sign bit 0. -/
def Obligations.DerivedOutputsStayInTheirRanges : Prop :=
  ∀ r r' : Word,
    (∀ x ∈ [real1 r, real2 r, real3 r, res53 r r'],
      x.getLsbD 63 = false ∧ (x.extractLsb' 52 11).toNat < 2047) ∧
    (0 ≤ (real1 r).value ∧ (real1 r).value ≤ 1) ∧ (0 ≤ (real2 r).value ∧ (real2 r).value < 1) ∧
      (0 < (real3 r).value ∧ (real3 r).value < 1) ∧ (0 ≤ (res53 r r').value ∧ (res53 r r').value < 1)
end

