-- ==== Sys2Proof/Laws/Buffer.lean ====
section
/-! SUPPORT. The loops of the seeders and of the twist engine: how to argue about them, and what each single
step of theirs does to the buffer. -/

namespace Sys2Proof.Machine

/-- To prove a property of a counted loop's result, prove that it holds at the start and that each turn
keeps it. -/
theorem fold_induction {α : Type} (P : Nat → α → Prop) {n : Nat} (f : (i : Nat) → i < n → α → α) (init : α)
    (h0 : P 0 init) (hs : ∀ i (h : i < n) a, P i a → P (i + 1) (f i h a)) : P n (Nat.fold n f init) := by
  induction n with
  | zero => exact h0
  | succ n ih =>
    rw [Nat.fold_succ]
    exact hs n (Nat.lt_succ_self n) _ (ih _ fun i h a => hs i (Nat.lt_succ_of_lt h) a)

/-- A twist step writes word k alone (40_core_commands.md R49). -/
theorem twistWord_other (mt : Buffer) (k : Fin 624) (i : Nat) (hi : i < 624) (hne : i ≠ k.val) :
    (twistWord mt k)[i] = mt[i] := by
  simp [twistWord, Ne.symm hne]

/-- What a twist step writes (R49). -/
theorem twistWord_self (mt : Buffer) (k : Fin 624) :
    (twistWord mt k)[k.val] = twistCombine mt[k.val]
      (mt[(k.val + 1) % 624]'(Nat.mod_lt _ (by decide)))
      (mt[(k.val + 397) % 624]'(Nat.mod_lt _ (by decide))) := by
  simp [twistWord]

/-- A walk's step below the end of the buffer: one write, and the index moves up (R45, R46). -/
theorem writeAndAdvance_inner (w : Walk) (v : Word) (h : w.i.val + 1 < 624) :
    w.writeAndAdvance v = ⟨w.mt.set w.i v, ⟨w.i.val + 1, h⟩⟩ := by
  simp [Walk.writeAndAdvance, h]

/-- A walk's step at the end of the buffer: the written word is copied into MT[0], and i is 1 again
(R45, R46). -/
theorem writeAndAdvance_wrap (w : Walk) (v : Word) (h : w.i.val = 623) :
    w.writeAndAdvance v = ⟨(w.mt.set 623 v).set 0 v, 1⟩ := by
  obtain ⟨mt, i⟩ := w
  obtain rfl : i = 623 := Fin.ext h
  simp [Walk.writeAndAdvance]

/-- The state index never leaves 1..623 (20_memory.md R21). -/
theorem writeAndAdvance_index_pos (w : Walk) (v : Word) : 0 < (w.writeAndAdvance v).i.val := by
  unfold Walk.writeAndAdvance
  split <;> simp

/-- SOURCE_COMPAT's overwrite leaves the index alone (R46). -/
@[simp] theorem overwrite_index (mode : Phase2Mode) (w : Walk) : (overwrite mode w).i = w.i := by
  cases mode <;> rfl

/-- SOURCE_COMPAT's overwrite leaves every word but MT[0] alone (R46). -/
theorem overwrite_other (mode : Phase2Mode) (w : Walk) (i : Nat) (hi : i < 624) (h : i ≠ 0) :
    (overwrite mode w).mt[i] = w.mt[i] := by
  cases mode
  · rfl
  · simp [overwrite, Ne.symm h]

/-- The key index after j, as a number (R45). -/
theorem nextKeyIndex_val {n : Nat} (j : Fin n) : (nextKeyIndex j).val = (j.val + 1) % n := by
  unfold nextKeyIndex
  split
  · rename_i h
    exact (Nat.mod_eq_of_lt h).symm
  · have : j.val + 1 = n := by omega
    simp [this]

end Sys2Proof.Machine
end

