-- ==== Sys2Proof/Laws/State.lean ====
section
/-! SUPPORT. What each update of the state leaves in each field, so that later proofs unfold no record
update. -/

namespace Sys2Proof.Machine

section Respond
variable (res : ResultCode) (op : BitVec 4) (data : Option Word) (s : State)
@[simp] theorem respond_cfg : (respond res op data s).cfg = s.cfg := rfl
@[simp] theorem respond_mt : (respond res op data s).mt = s.mt := rfl
@[simp] theorem respond_mti : (respond res op data s).mti = s.mti := rfl
@[simp] theorem respond_rx : (respond res op data s).rx = s.rx := rfl
@[simp] theorem respond_response : (respond res op data s).response = some ⟨res, op, data⟩ := rfl
@[simp] theorem respond_channel : (respond res op data s).channel = s.channel := rfl
@[simp] theorem respond_moves : (respond res op data s).moves = s.moves := rfl
@[simp] theorem respond_draws : (respond res op data s).draws = s.draws := rfl
/-- An error is a response without data (60_exceptions.md R70). -/
theorem raiseError_eq : raiseError res op s = respond res op none s := rfl
end Respond

section TakeResponse
variable (s : State)
@[simp] theorem takeResponse_cfg : (takeResponse s).cfg = s.cfg := rfl
@[simp] theorem takeResponse_mt : (takeResponse s).mt = s.mt := rfl
@[simp] theorem takeResponse_mti : (takeResponse s).mti = s.mti := rfl
@[simp] theorem takeResponse_rx : (takeResponse s).rx = s.rx := rfl
@[simp] theorem takeResponse_response : (takeResponse s).response = none := rfl
@[simp] theorem takeResponse_channel : (takeResponse s).channel = s.channel := rfl
@[simp] theorem takeResponse_moves : (takeResponse s).moves = s.moves := rfl
@[simp] theorem takeResponse_draws : (takeResponse s).draws = s.draws := rfl
end TakeResponse

section ResetInput
variable (s : State)
@[simp] theorem resetInput_cfg : (resetInput s).cfg = s.cfg := rfl
@[simp] theorem resetInput_mti : (resetInput s).mti = 625#10 := rfl
@[simp] theorem resetInput_rx : (resetInput s).rx = [] := rfl
@[simp] theorem resetInput_response : (resetInput s).response = none := rfl
@[simp] theorem resetInput_channel : (resetInput s).channel = s.channel := rfl
@[simp] theorem resetInput_moves : (resetInput s).moves = s.moves := rfl
@[simp] theorem resetInput_draws : (resetInput s).draws = s.draws + 624 := rfl
end ResetInput

section ResetOf
variable (cfg : Config) (mt : Buffer)
@[simp] theorem resetOf_cfg : (State.resetOf cfg mt).cfg = cfg := rfl
@[simp] theorem resetOf_mt : (State.resetOf cfg mt).mt = mt := rfl
@[simp] theorem resetOf_mti : (State.resetOf cfg mt).mti = 625#10 := rfl
@[simp] theorem resetOf_rx : (State.resetOf cfg mt).rx = [] := rfl
@[simp] theorem resetOf_response : (State.resetOf cfg mt).response = none := rfl
@[simp] theorem resetOf_channel : (State.resetOf cfg mt).channel = [] := rfl
@[simp] theorem resetOf_moves : (State.resetOf cfg mt).moves = [] := rfl
end ResetOf

section Refill
variable (s : State)
@[simp] theorem defaultSeed_mt : (defaultSeed s).mt = seedFill s.mt defaultSeedValue := rfl
@[simp] theorem defaultSeed_mti : (defaultSeed s).mti = 624#10 := rfl
@[simp] theorem refill_mt : (refill s).mt = twist s.mt := rfl
@[simp] theorem refill_mti : (refill s).mti = 0#10 := rfl

/-- A ready block needs no refill (40_core_commands.md R54). -/
theorem refillIfDue_ready (h : s.mti.toNat < 624) : refillIfDue s = s := by
  simp [refillIfDue, Nat.not_le.mpr h]

/-- The refill of an exhausted block (R54). -/
theorem refillIfDue_exhausted (h : 624 ≤ s.mti.toNat) (h' : s.mti ≠ 625#10) :
    refillIfDue s = { s with mt := twist s.mt, mti := 0#10 } := by
  rw [refillIfDue, if_pos h, if_neg h']
  rfl

/-- The default seed and the refill of an uninitialized block (R53, R54). -/
theorem refillIfDue_uninitialized (h : s.mti = 625#10) :
    refillIfDue s = { s with mt := twist (seedFill s.mt defaultSeedValue), mti := 0#10 } := by
  simp [refillIfDue, h, refill, defaultSeed]

/-- Whatever the cursor, making a word ready touches the buffer and the cursor alone. -/
theorem refillIfDue_frame : refillIfDue s = { s with mt := (refillIfDue s).mt, mti := (refillIfDue s).mti } := by
  unfold refillIfDue refill defaultSeed
  split
  · split <;> rfl
  · rfl

@[simp] theorem refillIfDue_cfg : (refillIfDue s).cfg = s.cfg := (congrArg State.cfg (refillIfDue_frame s)).trans rfl
@[simp] theorem refillIfDue_rx : (refillIfDue s).rx = s.rx := (congrArg State.rx (refillIfDue_frame s)).trans rfl
@[simp] theorem refillIfDue_response : (refillIfDue s).response = s.response :=
  (congrArg State.response (refillIfDue_frame s)).trans rfl
@[simp] theorem refillIfDue_channel : (refillIfDue s).channel = s.channel :=
  (congrArg State.channel (refillIfDue_frame s)).trans rfl
@[simp] theorem refillIfDue_moves : (refillIfDue s).moves = s.moves :=
  (congrArg State.moves (refillIfDue_frame s)).trans rfl
@[simp] theorem refillIfDue_draws : (refillIfDue s).draws = s.draws :=
  (congrArg State.draws (refillIfDue_frame s)).trans rfl
end Refill

section EmitWord
variable (s : State) (h : s.mti.toNat < 624)
@[simp] theorem emitWord_mt : (emitWord s h).mt = s.mt := rfl
@[simp] theorem emitWord_mti : (emitWord s h).mti = s.mti + 1#10 := rfl
@[simp] theorem emitWord_response :
    (emitWord s h).response = some ⟨.ok, 0x3#4, some (temper s.mt[s.mti.toNat])⟩ := rfl
end EmitWord

end Sys2Proof.Machine
end

