-- ==== Sys2Proof/Laws/Exec.lean ====
section
/-! SUPPORT. The shape of what performing a command can do. -/

namespace Sys2Proof.Machine

/-- Performing a command answers a next state that differs from the old one in the buffer, the cursor and
the response at most, and one response is there (20_memory.md R28; 10_state.md R14). -/
theorem exec_cases (i : Instr) (s : State) :
    ∃ mt mti r, exec i s = .next { s with mt := mt, mti := mti, response := some r } := by
  cases i with
  | seedScalar seed => exact ⟨_, _, _, rfl⟩
  | seedArray key =>
    by_cases h : 0 < key.length
    · exact ⟨_, _, _, by simp only [exec, execSeedArray, dif_pos h]; rfl⟩
    · exact ⟨_, _, _, by simp only [exec, execSeedArray, dif_neg h]; rfl⟩
  | nextU32 =>
    exact ⟨(refillIfDue s).mt, (refillIfDue s).mti + 1#10,
      ⟨.ok, 0x3#4, some (temper ((refillIfDue s).mt[(refillIfDue s).mti.toNat]'(refillIfDue_mti_lt s)))⟩,
      by simp [exec, execNextU32, emitWord, respond]⟩
  | readStatus => exact ⟨s.mt, s.mti, _, rfl⟩

end Sys2Proof.Machine
end

