-- ==== Sys2Proof/Laws/Channel.lean ====
section
/-! SUPPORT. The command channel: framing, and the cases of a step. -/

namespace Sys2Proof.Machine

/-- The channel words of a packet are never none (30_encoding.md R32). -/
theorem markLast_ne_nil (w : Word) (ws : List Word) : markLast w ws ≠ [] := by
  cases ws <;> simp [markLast]

/-- Splitting after the last-word mark gives a packet's words back, whatever follows them (R32). -/
theorem splitAtLast_markLast (w : Word) (ws : List Word) (rest : List ChannelWord) :
    splitAtLast (markLast w ws ++ rest) = some (w :: ws, rest) := by
  induction ws generalizing w with
  | nil => simp [markLast, splitAtLast]
  | cons w' ws ih => simp [markLast, splitAtLast, ih]

/-- Words without a last-word mark are no whole packet (R32). -/
theorem splitAtLast_unmarked {us : List ChannelWord} (h : ∀ c ∈ us, c.last = false) : splitAtLast us = none := by
  induction us with
  | nil => rfl
  | cons c us ih => simp [splitAtLast, h c (by simp), ih fun x hx => h x (by simp [hx])]

/-- Splitting takes the words up to the first marked one, and that one (R32). -/
theorem splitAtLast_append {us : List ChannelWord} (h : ∀ c ∈ us, c.last = false) (w : Word)
    (rest : List ChannelWord) :
    splitAtLast (us ++ ⟨w, true⟩ :: rest) = some (us.map (·.word) ++ [w], rest) := by
  induction us with
  | nil => rfl
  | cons c us ih => simp [splitAtLast, h c (by simp), ih fun x hx => h x (by simp [hx])]

/-- The words split off are never none: the marked word is one of them (R32). -/
theorem splitAtLast_ne_nil {cs rest : List ChannelWord} {ws : List Word}
    (h : splitAtLast cs = some (ws, rest)) : ws ≠ [] := by
  cases cs with
  | nil => simp [splitAtLast] at h
  | cons c cs =>
    rw [splitAtLast] at h
    split at h
    · simp at h
      simp [← h.1]
    · simp only [Option.map_eq_some_iff, Prod.mk.injEq] at h
      obtain ⟨_, _, rfl, _⟩ := h
      simp

/-- Performing a packet answers a next state that differs in the buffer, the cursor and the response at
most, and one response is there (20_memory.md R28). -/
theorem performPacket_cases (p : Packet) (s : State) :
    ∃ mt mti r, performPacket p s = .next { s with mt := mt, mti := mti, response := some r } := by
  unfold performPacket
  split
  · exact exec_cases _ s
  · exact ⟨s.mt, s.mti, _, rfl⟩

/-- What one step can do.  Either the idle block accepts a packet and performs it, or it receives words of
an unfinished packet, or the host moves (20_memory.md R28; 70_reset_and_hazards.md R84, R86). -/
theorem step_cases (s : State) :
    (s.response = none ∧ ∃ h p rest ws, splitAtLast s.channel = some (ws, rest) ∧ s.rx ++ ws = h :: p ∧
        step s = performPacket ⟨h, p⟩ { s with rx := [], channel := rest }) ∨
      (s.response = none ∧ s.channel ≠ [] ∧ splitAtLast s.channel = none ∧
        step s = .next { s with rx := s.rx ++ s.channel.map (·.word), channel := [] }) ∨
      ((s.response ≠ none ∨ s.channel = []) ∧ step s = .next (hostMove s)) := by
  unfold step stepBlock
  by_cases hc : s.response = none ∧ s.channel ≠ []
  · rw [if_pos hc]
    unfold receive
    split
    · rename_i ws rest hw
      left
      obtain ⟨h, p, hp⟩ : ∃ h p, s.rx ++ ws = h :: p :=
        List.exists_cons_of_ne_nil (by simp [splitAtLast_ne_nil hw])
      refine ⟨hc.1, h, p, rest, ws, hw, hp, ?_⟩
      rw [hp]
      rfl
    · rename_i hw
      exact .inr (.inl ⟨hc.1, hc.2, hw, rfl⟩)
  · rw [if_neg hc]
    refine .inr (.inr ⟨?_, rfl⟩)
    by_cases hr : s.response = none
    · exact .inr (by simpa [hr] using hc)
    · exact .inl hr

/-- The step on an offered packet performs it, with the packet taken off the channel (R28, R32). -/
theorem step_offerPacket (p : Packet) (s : State) :
    step (offerPacket p s) = performPacket p { s with rx := [], response := none } := by
  have hne : channelWords p ++ s.channel ≠ [] := by simp [channelWords, markLast_ne_nil]
  unfold step stepBlock
  rw [if_pos ⟨rfl, hne⟩]
  simp [receive, offerPacket, channelWords, splitAtLast_markLast, performWords]

end Sys2Proof.Machine
end

