-- ==== Sys2Proof/Laws/Decode.lean ====
section
/-! SUPPORT. The fields of a built header, a header rebuilt from its fields (30_encoding.md R32), and the
decoder's payload checks by their count (R37). -/

namespace Sys2Proof

@[simp] theorem headerOp_mkHeader (op rsv : BitVec 4) (len : BitVec 24) : headerOp (mkHeader op rsv len) = op := by
  ext i hi
  simp [headerOp, mkHeader, hi, show i < 8 by omega, show i < 32 by omega]

@[simp] theorem headerRsv_mkHeader (op rsv : BitVec 4) (len : BitVec 24) :
    headerRsv (mkHeader op rsv len) = rsv := by
  ext i hi
  simp [headerRsv, mkHeader, hi, show 4 + i < 8 by omega, show 4 + i < 32 by omega]

@[simp] theorem headerLen_mkHeader (op rsv : BitVec 4) (len : BitVec 24) :
    headerLen (mkHeader op rsv len) = len := by
  ext i hi
  simp [headerLen, mkHeader, show 8 + i < 32 by omega, show 8 + i - 4 = i + 4 by omega, hi,
    BitVec.getLsbD_of_ge op (8 + i) (by omega)]

/-- A header is made of its three fields. -/
theorem mkHeader_fields (h : Word) : mkHeader (headerOp h) (headerRsv h) (headerLen h) = h := by
  apply BitVec.eq_of_getLsbD_eq
  intro i hi
  simp only [mkHeader, headerOp, headerRsv, headerLen, BitVec.getLsbD_or, BitVec.getLsbD_shiftLeft,
    BitVec.getLsbD_setWidth, BitVec.getLsbD_extractLsb', hi, decide_true, Bool.true_and]
  by_cases h1 : i < 4
  · simp [h1, show i < 8 by omega]
  · by_cases h2 : i < 8
    · simp [h1, h2, show i - 4 < 4 by omega, show i - 4 < 32 by omega, show 4 + (i - 4) = i by omega]
    · simp [h1, h2, show ¬i - 4 < 4 by omega, show i - 8 < 24 by omega, show i - 8 < 32 by omega,
        show 8 + (i - 8) = i by omega]

/-- SEED_SCALAR's payload check, by the payload count (R37). -/
theorem decodeSeedScalar_eq (ws : List Word) :
    decodeSeedScalar ws =
      if ws.length = 1 then .instr (.seedScalar (ws.headD 0#32)) else .illegal .payloadCount := by
  match ws with
  | [] => rfl
  | [w] => rfl
  | w :: w' :: ws => simp [decodeSeedScalar]

/-- The payload check of a command without payload, by the payload count (R37). -/
theorem decodeBare_eq (i : Instr) (ws : List Word) :
    decodeBare i ws = if ws.length = 0 then .instr i else .illegal .payloadCount := by
  cases ws with
  | nil => rfl
  | cons w ws => simp [decodeBare]

end Sys2Proof
end

