-- ==== Sys2Proof/Laws/Derived.lean ====
section
/-! SUPPORT. What the binary64 rounding of the derived outputs does (41_host_derived_outputs.md R61; decision
D18): the scale, the rounded integer, and the value and fields of the result. -/

namespace Sys2Proof.Machine

/-- At the chosen scale a fraction below 2^53 lies in [2^52, 2^53). -/
theorem roundScale_bounds {num den : Nat} (hn : 0 < num) (hd : 0 < den) (h : num < den * 2 ^ 53) :
    den * 2 ^ 52 ≤ num * 2 ^ roundScale num den ∧ num * 2 ^ roundScale num den < den * 2 ^ 53 := by
  have n1 := Nat.log2_self_le (Nat.pos_iff_ne_zero.mp hn)
  have n2 := Nat.lt_log2_self (n := num)
  have d1 := Nat.log2_self_le (Nat.pos_iff_ne_zero.mp hd)
  have d2 := Nat.lt_log2_self (n := den)
  unfold roundScale
  by_cases hs : num.log2 ≤ 52 + den.log2
  · obtain ⟨s, hs⟩ := Nat.exists_eq_add_of_le hs
    have e : 52 + den.log2 - num.log2 = s := by omega
    have p1 := Nat.mul_le_mul_right (2 ^ s) n1
    have p2 := Nat.mul_lt_mul_of_pos_right n2 (Nat.two_pow_pos s)
    rw [← Nat.pow_add] at p1 p2
    rw [← hs] at p1
    rw [show num.log2 + 1 + s = 52 + den.log2 + 1 by omega] at p2
    have q1 : 2 ^ (52 + den.log2) = 2 ^ den.log2 * 2 ^ 52 := by rw [Nat.pow_add, Nat.mul_comm]
    have q2 : 2 ^ (52 + den.log2 + 1) = 2 ^ den.log2 * 2 ^ 53 := by
      rw [show 52 + den.log2 + 1 = den.log2 + 53 by omega, Nat.pow_add]
    have q3 : 2 ^ (den.log2 + 1) = 2 ^ den.log2 * 2 := Nat.pow_succ ..
    have q4 : num * 2 ^ (s + 1) = num * 2 ^ s * 2 := by rw [Nat.pow_succ, Nat.mul_assoc]
    simp only [e]
    split <;> omega
  · have e : 52 + den.log2 - num.log2 = 0 := by omega
    have p : 2 ^ (den.log2 + 53) ≤ 2 ^ num.log2 := Nat.pow_le_pow_right (by decide) (by omega)
    have q3 : 2 ^ (den.log2 + 53) = 2 ^ (den.log2 + 1) * 2 ^ 52 := by
      rw [show den.log2 + 53 = den.log2 + 1 + 52 by omega, Nat.pow_add]
    have : ¬num * 2 ^ 0 < den * 2 ^ 52 := by omega
    simp only [e, if_neg this]
    omega

/-- The scale is the only one with those bounds. -/
theorem roundScale_unique {num den s : Nat} (hn : 0 < num) (hd : 0 < den) (h1 : den * 2 ^ 52 ≤ num * 2 ^ s)
    (h2 : num * 2 ^ s < den * 2 ^ 53) : roundScale num den = s := by
  have h : num < den * 2 ^ 53 := Nat.lt_of_le_of_lt (Nat.le_mul_of_pos_right num (Nat.two_pow_pos s)) h2
  obtain ⟨b1, b2⟩ := roundScale_bounds hn hd h
  have key : ∀ a b, a < b → den * 2 ^ 52 ≤ num * 2 ^ a → num * 2 ^ b < den * 2 ^ 53 → False := by
    intro a b hab ha hb
    have : num * 2 ^ (a + 1) ≤ num * 2 ^ b := Nat.mul_le_mul_left _ (Nat.pow_le_pow_right (by decide) hab)
    rw [Nat.pow_succ, ← Nat.mul_assoc] at this
    omega
  rcases Nat.lt_trichotomy (roundScale num den) s with hlt | heq | hgt
  · exact (key _ _ hlt b1 h2).elim
  · exact heq
  · exact (key _ _ hgt h1 b2).elim

/-- The scale of a fraction of at least 2^-k. -/
theorem roundScale_lt {num den k : Nat} (hn : 0 < num) (hd : 0 < den) (h : num < den * 2 ^ 53)
    (h' : den ≤ num * 2 ^ k) : roundScale num den < k + 53 := by
  by_contra hc
  have b := (roundScale_bounds hn hd h).2
  have p : num * 2 ^ (k + 53) ≤ num * 2 ^ roundScale num den :=
    Nat.mul_le_mul_left _ (Nat.pow_le_pow_right (by decide) (by omega))
  have q : den * 2 ^ 53 ≤ num * 2 ^ k * 2 ^ 53 := Nat.mul_le_mul_right _ h'
  rw [Nat.mul_assoc, ← Nat.pow_add] at q
  omega

/-- Rounding to an integer: at most a half away, and even where it is exactly a half. -/
theorem roundHalfEven_near (num : Nat) {den : Nat} (hd : 0 < den) :
    |(roundHalfEven num den : ℚ) - num / den| ≤ 1 / 2 ∧
      (|(roundHalfEven num den : ℚ) - num / den| = 1 / 2 → roundHalfEven num den % 2 = 0) := by
  have hq : (0 : ℚ) < den := by exact_mod_cast hd
  have e : (num : ℚ) / den = (num / den : Nat) + (num % den : Nat) / den := by
    rw [div_eq_iff hq.ne', add_mul, div_mul_cancel₀ _ hq.ne']
    exact_mod_cast (Nat.div_add_mod' num den).symm
  have r1 : (0 : ℚ) ≤ (num % den : Nat) / den := by positivity
  have r2 : ((num % den : Nat) : ℚ) / den < 1 := by
    rw [div_lt_one hq]
    exact_mod_cast Nat.mod_lt num hd
  unfold roundHalfEven
  rw [e]
  generalize num / den = q
  generalize num % den = r at r1 r2
  simp only
  split_ifs with h1 h2
  · have : (r : ℚ) / den < 1 / 2 := by
      rw [div_lt_iff₀ hq]
      have : (2 * r : ℚ) < den := by exact_mod_cast h1
      linarith
    have ab : |(q : ℚ) - (q + r / den)| = r / den := by
      rw [show (q : ℚ) - (q + r / den) = -(r / den) by ring, abs_neg, abs_of_nonneg r1]
    rw [ab]
    exact ⟨this.le, fun h => absurd h this.ne⟩
  · have lo : 1 / 2 < (r : ℚ) / den := by
      rw [lt_div_iff₀ hq]
      have : (den : ℚ) < 2 * r := by exact_mod_cast h2
      linarith
    have ab : |((q + 1 : Nat) : ℚ) - (q + r / den)| = 1 - r / den := by
      rw [show ((q + 1 : Nat) : ℚ) - (q + r / den) = 1 - r / den by push_cast; ring,
        abs_of_nonneg (by linarith)]
    rw [ab]
    exact ⟨by linarith, fun h => by linarith⟩
  · have half : (r : ℚ) / den = 1 / 2 := by
      rw [div_eq_iff hq.ne']
      have : (den : ℚ) = 2 * r := by exact_mod_cast (by omega : den = 2 * r)
      linarith
    rw [half]
    rcases Nat.mod_two_eq_zero_or_one q with hm | hm <;> rw [hm]
    · refine ⟨?_, fun _ => by omega⟩
      rw [show ((q + 0 : Nat) : ℚ) - (q + 1 / 2) = -(1 / 2) by push_cast; ring, abs_neg,
        abs_of_pos (by norm_num)]
    · refine ⟨?_, fun _ => by omega⟩
      rw [show ((q + 1 : Nat) : ℚ) - (q + 1 / 2) = 1 / 2 by push_cast; ring, abs_of_pos (by norm_num)]

/-- A fraction between two integers rounds to one between them. -/
theorem roundHalfEven_bounds {num den lo hi : Nat} (hd : 0 < den) (h1 : den * lo ≤ num) (h2 : num < den * hi) :
    lo ≤ roundHalfEven num den ∧ roundHalfEven num den ≤ hi := by
  have a : lo ≤ num / den := by rwa [Nat.le_div_iff_mul_le hd, Nat.mul_comm]
  have b : num / den < hi := by rwa [Nat.div_lt_iff_lt_mul hd, Nat.mul_comm]
  unfold roundHalfEven
  have := Nat.mod_lt (num / den) (show 0 < 2 by decide)
  simp only
  split_ifs <;> omega

/-- Rounding to an integer depends on the fraction alone. -/
theorem roundHalfEven_scale (num den : Nat) {k : Nat} (hk : 0 < k) :
    roundHalfEven (k * num) (k * den) = roundHalfEven num den := by
  have e : ∀ r, 2 * (k * r) = k * (2 * r) := fun r => Nat.mul_left_comm 2 k r
  simp only [roundHalfEven, Nat.mul_div_mul_left _ _ hk, Nat.mul_mod_mul_left, e, Nat.mul_lt_mul_left hk]

/-- A whole number rounds to itself. -/
theorem roundHalfEven_exact (m : Nat) {den : Nat} (hd : 0 < den) : roundHalfEven (m * den) den = m := by
  simp [roundHalfEven, Nat.mul_div_cancel _ hd, hd]

/-- `fl` depends on the fraction alone. -/
theorem fl_scale {num den k : Nat} (hd : 0 < den) (h : num < den * 2 ^ 53) (hk : 0 < k) :
    fl (k * num) (k * den) = fl num den := by
  rcases Nat.eq_zero_or_pos num with rfl | hn
  · simp [fl]
  · obtain ⟨b1, b2⟩ := roundScale_bounds hn hd h
    have hs : roundScale (k * num) (k * den) = roundScale num den := by
      apply roundScale_unique (Nat.mul_pos hk hn) (Nat.mul_pos hk hd)
      · rw [Nat.mul_assoc, Nat.mul_assoc]
        exact Nat.mul_le_mul_left k b1
      · rw [Nat.mul_assoc, Nat.mul_assoc]
        exact Nat.mul_lt_mul_of_pos_left b2 hk
    simp only [fl, Nat.pos_iff_ne_zero.mp hn, Nat.pos_iff_ne_zero.mp (Nat.mul_pos hk hn), if_false, hs,
      Nat.mul_assoc, roundHalfEven_scale _ _ hk]

/-- Equal fractions round alike. -/
theorem fl_congr {num den num' den' : Nat} (hd : 0 < den) (hd' : 0 < den') (h : num < den * 2 ^ 53)
    (he : num * den' = num' * den) : fl num den = fl num' den' := by
  have h' : num' < den' * 2 ^ 53 := by
    apply Nat.lt_of_mul_lt_mul_right (a := den)
    rw [← he, Nat.mul_right_comm, Nat.mul_comm den' den, Nat.mul_right_comm]
    exact Nat.mul_lt_mul_of_pos_right h hd'
  rw [← fl_scale hd h hd', ← fl_scale hd' h' hd, Nat.mul_comm den' num, he, Nat.mul_comm num' den,
    Nat.mul_comm den' den]

/-- The exponent field, as a number. -/
theorem exponent_eq (x : Binary64) (h : x.toNat < 2 ^ 63) : (x.extractLsb' 52 11).toNat = x.toNat / 2 ^ 52 := by
  rw [BitVec.extractLsb'_toNat, Nat.shiftRight_eq_div_pow]
  omega

/-- The fraction field, as a number. -/
theorem significand_eq (x : Binary64) : (x.extractLsb' 0 52).toNat = x.toNat % 2 ^ 52 := by
  rw [BitVec.extractLsb'_toNat, Nat.shiftRight_zero]

/-- A bit pattern is finite and not negative exactly if it lies below that of infinity. -/
theorem finiteNonneg_iff (x : Binary64) : x.finiteNonneg = true ↔ x.toNat < 2047 * 2 ^ 52 := by
  have h63 : x.getLsbD 63 = decide (2 ^ 63 ≤ x.toNat) := by
    have := BitVec.msb_eq_decide x
    simpa [BitVec.msb, BitVec.getMsbD] using this
  unfold Binary64.finiteNonneg
  rw [h63]
  by_cases h : x.toNat < 2 ^ 63
  · rw [exponent_eq x h]
    simp
    omega
  · simp
    omega

/-- The value of a pattern with exponent field 1075 or more: a whole number. -/
theorem value_whole (x : Binary64) (h : x.toNat < 2 ^ 63) (he : 1075 ≤ x.toNat / 2 ^ 52) :
    x.value = ((2 ^ 52 + x.toNat % 2 ^ 52) * 2 ^ (x.toNat / 2 ^ 52 - 1075) : Nat) := by
  have h0 : x.toNat / 2 ^ 52 ≠ 0 := by omega
  simp only [Binary64.value, Binary64.fraction, exponent_eq x h, significand_eq, if_neg h0, if_pos he,
    Nat.cast_one, div_one]

/-- The value of a normal pattern with a smaller exponent field. -/
theorem value_normal (x : Binary64) (h : x.toNat < 2 ^ 63) (h0 : x.toNat / 2 ^ 52 ≠ 0)
    (he : x.toNat / 2 ^ 52 < 1075) :
    x.value = ((2 ^ 52 + x.toNat % 2 ^ 52 : Nat) : ℚ) / 2 ^ (1075 - x.toNat / 2 ^ 52) := by
  simp only [Binary64.value, Binary64.fraction, exponent_eq x h, significand_eq, if_neg h0,
    if_neg (Nat.not_le.mpr he), Nat.cast_pow, Nat.cast_ofNat]

/-- The value of a pattern with exponent field 0: zero, or a subnormal number. -/
theorem value_subnormal (x : Binary64) (h : x.toNat < 2 ^ 63) (h0 : x.toNat / 2 ^ 52 = 0) :
    x.value = ((x.toNat % 2 ^ 52 : Nat) : ℚ) / ((2 ^ 1074 : Nat) : ℚ) := by
  simp only [Binary64.value, Binary64.fraction, exponent_eq x h, significand_eq, if_pos h0]

/-- What `fl` answers for a significand m and a scale s: a finite value m / 2^s whose low bit is m's. -/
structure Rounded (x : Binary64) (m s : Nat) : Prop where
  finite : x.finiteNonneg = true
  value : x.value = m / 2 ^ s
  low : x.getLsbD 0 = decide (m % 2 = 1)

/-- The bit pattern with significand m, a carry into the exponent included. -/
theorem rounded_ofNat {m s : Nat} (h1 : 2 ^ 52 ≤ m) (h2 : m ≤ 2 ^ 53) (hs : s < 1074) :
    Rounded (BitVec.ofNat 64 ((1075 - s) * 2 ^ 52 + m - 2 ^ 52)) m s := by
  have ht : (BitVec.ofNat 64 ((1075 - s) * 2 ^ 52 + m - 2 ^ 52)).toNat = (1074 - s) * 2 ^ 52 + m := by
    rw [BitVec.toNat_ofNat]
    omega
  generalize BitVec.ofNat 64 ((1075 - s) * 2 ^ 52 + m - 2 ^ 52) = x at ht
  have h63 : x.toNat < 2 ^ 63 := by omega
  refine ⟨(finiteNonneg_iff x).mpr (by omega), ?_, ?_⟩
  · rcases Nat.lt_or_ge m (2 ^ 53) with hm | hm
    · have e1 : x.toNat / 2 ^ 52 = 1075 - s := by omega
      have e2 : 2 ^ 52 + x.toNat % 2 ^ 52 = m := by omega
      rcases Nat.eq_zero_or_pos s with rfl | hpos
      · rw [value_whole x h63 (by omega), e1, e2, Nat.sub_zero, Nat.sub_self, pow_zero, pow_zero, Nat.mul_one,
          div_one]
      · rw [value_normal x h63 (by omega) (by omega), e1, e2, Nat.sub_sub_self (by omega)]
    · obtain rfl : m = 2 ^ 53 := Nat.le_antisymm h2 hm
      have e1 : x.toNat / 2 ^ 52 = 1076 - s := by omega
      have e2 : 2 ^ 52 + x.toNat % 2 ^ 52 = 2 ^ 52 := by omega
      rcases Nat.lt_or_ge s 2 with hs2 | hs2
      · rw [value_whole x h63 (by omega), e1, e2]
        interval_cases s <;> norm_num
      · obtain ⟨k, rfl⟩ := Nat.exists_eq_add_of_le' hs2
        rw [value_normal x h63 (by omega) (by omega), e1, e2, show 1075 - (1076 - (k + 2)) = k + 1 by omega,
          pow_succ _ (k + 1)]
        push_cast
        rw [div_eq_div_iff (by positivity) (by positivity)]
        ring
  · rw [BitVec.getLsbD, Nat.testBit_zero, ht]
    congr 1
    rw [eq_iff_iff]
    omega

/-- What `fl` answers: the scaled fraction rounded to an integer, at the scale. -/
theorem fl_rounded {num den k : Nat} (hn : 0 < num) (hd : 0 < den) (h : num < den * 2 ^ 53)
    (hk : den ≤ num * 2 ^ k) (hk' : k ≤ 1021) :
    Rounded (fl num den) (roundHalfEven (num * 2 ^ roundScale num den) den) (roundScale num den) := by
  obtain ⟨b1, b2⟩ := roundScale_bounds hn hd h
  obtain ⟨m1, m2⟩ := roundHalfEven_bounds hd b1 b2
  have hs := roundScale_lt hn hd h hk
  rw [fl, if_neg (Nat.pos_iff_ne_zero.mp hn)]
  exact rounded_ofNat m1 m2 (by omega)

/-- Zero rounds to the pattern 0, which is finite and has the value 0. -/
theorem fl_zero (den : Nat) : fl 0 den = 0#64 := by simp [fl]

theorem value_zero : Binary64.value 0#64 = 0 := by
  rw [value_subnormal 0#64 (by decide) (by decide), show BitVec.toNat 0#64 % 2 ^ 52 = 0 from rfl, Nat.cast_zero,
    zero_div]

/-- A fraction of at most 53 significant bits is not changed by rounding. -/
theorem fl_exact {num den k s m : Nat} (hd : 0 < den) (h : num < den * 2 ^ 53) (hk : num = 0 ∨ den ≤ num * 2 ^ k)
    (hk' : k ≤ 1021) (hm : num * 2 ^ s = m * den) (hm' : m < 2 ^ 53) :
    (fl num den).finiteNonneg = true ∧ (fl num den).value = num / den := by
  have hq : (den : ℚ) ≠ 0 := by exact_mod_cast Nat.pos_iff_ne_zero.mp hd
  rcases Nat.eq_zero_or_pos num with rfl | hn
  · rw [fl_zero, value_zero]
    exact ⟨rfl, by simp⟩
  · have r := fl_rounded hn hd h (hk.resolve_left (Nat.pos_iff_ne_zero.mp hn)) hk'
    obtain ⟨b1, _⟩ := roundScale_bounds hn hd h
    generalize roundScale num den = R at r b1
    have hsR : s ≤ R := by
      by_contra hc
      obtain ⟨d, rfl⟩ := Nat.exists_eq_add_of_lt (Nat.not_le.mp hc)
      have : den * 2 ^ 52 * 2 ^ (d + 1) ≤ num * 2 ^ R * 2 ^ (d + 1) := Nat.mul_le_mul_right _ b1
      rw [Nat.mul_assoc num, ← Nat.pow_add, show R + (d + 1) = R + d + 1 by omega, hm, Nat.mul_comm m,
        Nat.mul_assoc] at this
      have := Nat.le_of_mul_le_mul_left this hd
      have := Nat.two_pow_pos d
      rw [pow_succ 2 d] at *
      omega
    obtain ⟨d, rfl⟩ := Nat.exists_eq_add_of_le hsR
    have e : num * 2 ^ (s + d) = m * 2 ^ d * den := by
      rw [Nat.pow_add, ← Nat.mul_assoc, hm, Nat.mul_right_comm]
    rw [e, roundHalfEven_exact _ hd] at r
    refine ⟨r.finite, r.value.trans ?_⟩
    rw [div_eq_div_iff (by positivity) hq]
    exact_mod_cast e.symm

/-- The denominator of a value is never 0. -/
theorem fraction_den_pos (x : Binary64) : 0 < x.fraction.2 := by
  unfold Binary64.fraction
  simp only
  split_ifs <;> positivity

/-- A value known as a fraction, crosswise. -/
theorem fraction_cross {x : Binary64} {n d : Nat} (hd : 0 < d) (h : x.value = (n : ℚ) / d) :
    x.fraction.1 * d = n * x.fraction.2 := by
  have := fraction_den_pos x
  unfold Binary64.value at h
  rw [div_eq_div_iff (by positivity) (by positivity)] at h
  exact_mod_cast h

/-- A number of at most 53 bits converts exactly (R61). -/
theorem ofNat_exact {n : Nat} (h : n < 2 ^ 53) :
    (Binary64.ofNat n).finiteNonneg = true ∧ (Binary64.ofNat n).value = n := by
  have := fl_exact (num := n) (den := 1) (k := 0) (s := 0) (m := n) (by decide) (by omega) (by omega)
    (by decide) (by simp) h
  simpa [Binary64.ofNat] using this

/-- A product is its factors' exact product, rounded once (R61). -/
theorem mul_eq_fl {a b : Binary64} {n d n' d' : Nat} (hd : 0 < d) (hd' : 0 < d') (ha : a.value = (n : ℚ) / d)
    (hb : b.value = (n' : ℚ) / d') (h : n * n' < d * d' * 2 ^ 53) : a.mul b = fl (n * n') (d * d') := by
  have ea := fraction_cross hd ha
  have eb := fraction_cross hd' hb
  have pa := fraction_den_pos a
  have pb := fraction_den_pos b
  refine (fl_congr (by positivity) (by positivity) h ?_).symm
  calc n * n' * (a.fraction.2 * b.fraction.2) = n * a.fraction.2 * (n' * b.fraction.2) := by ring
    _ = a.fraction.1 * b.fraction.1 * (d * d') := by rw [← ea, ← eb]; ring

/-- A sum is its terms' exact sum, rounded once (R61). -/
theorem add_eq_fl {a b : Binary64} {n d n' d' : Nat} (hd : 0 < d) (hd' : 0 < d') (ha : a.value = (n : ℚ) / d)
    (hb : b.value = (n' : ℚ) / d') (h : n * d' + n' * d < d * d' * 2 ^ 53) :
    a.add b = fl (n * d' + n' * d) (d * d') := by
  have ea := fraction_cross hd ha
  have eb := fraction_cross hd' hb
  have pa := fraction_den_pos a
  have pb := fraction_den_pos b
  refine (fl_congr (by positivity) (by positivity) h ?_).symm
  calc (n * d' + n' * d) * (a.fraction.2 * b.fraction.2) =
      n * a.fraction.2 * (b.fraction.2 * d') + n' * b.fraction.2 * (a.fraction.2 * d) := by ring
    _ = (a.fraction.1 * b.fraction.2 + b.fraction.1 * a.fraction.2) * (d * d') := by rw [← ea, ← eb]; ring

end Sys2Proof.Machine
end

