-- ==== Sys2Proof/Laws/Eval.lean ====
section
/-! SUPPORT. Forms of the seeders and of the refill that the kernel evaluates quickly, each proved equal to
the model's in-place loops.  The tests use them to meet the spec's vectors (95_test_vectors.md). -/

namespace Sys2Proof.Machine

/-- Pass on a number after evaluating it: the kernel must know its value to choose the case. -/
def forceNat {α : Type} : Nat → (Nat → α) → α
  | 0, k => k 0
  | n + 1, k => k (n + 1)

/-- Pass on a word after evaluating it. -/
def forceWord {α : Type} (x : Word) (k : Word → α) : α := forceNat x.toNat fun n => k (BitVec.ofNat 32 n)

theorem forceWord_eq {α : Type} (x : Word) (k : Word → α) : forceWord x k = k x := by
  have h : ∀ n (f : Nat → α), forceNat n f = f n := fun n f => by cases n <;> rfl
  simp [forceWord, h]

/-- Word i of the seeding recurrence (R42). -/
def seedWord (s : Word) : Nat → Word
  | 0 => s
  | i + 1 => seedNext (seedWord s i) (i + 1)

/-- Every word of a seeded buffer, whatever the buffer held before (R42). -/
theorem seedFill_getElem (mt : Buffer) (s : Word) (i : Nat) (hi : i < 624) :
    (seedFill mt s)[i] = seedWord s i := by
  unfold seedFill
  have key := fold_induction
    (P := fun n (b : Buffer) => ∀ j (hj : j < 624), j ≤ n → b[j] = seedWord s j)
    (f := fun t h (mt : Buffer) => mt.set (t + 1) (seedNext mt[t] (t + 1))) (n := 623) (mt.set 0 s)
    (fun j hj h => by
      obtain rfl : j = 0 := by omega
      simp [seedWord])
    (fun t ht b hb j hj h => by
      by_cases hjt : j = t + 1
      · subst hjt
        simp [seedWord, hb t (by omega) (Nat.le_refl t)]
      · rw [Vector.getElem_set_ne (h := fun e => hjt e.symm)]
        exact hb j hj (by omega))
  exact key i hi (by omega)

/-- Walk the seeding recurrence n words on from word i, evaluating each word. -/
def seedFrom : Nat → Nat → Word → Word
  | 0, _, x => x
  | n + 1, i, x => forceWord (seedNext x (i + 1)) fun y => seedFrom n (i + 1) y

theorem seedFrom_eq (s : Word) (n i : Nat) : seedFrom n i (seedWord s i) = seedWord s (i + n) := by
  induction n generalizing i with
  | zero => rfl
  | succ n ih =>
    rw [seedFrom, forceWord_eq]
    exact (ih (i + 1)).trans (by rw [Nat.add_right_comm, Nat.add_assoc])

/-- A word of a seeded buffer, by evaluation. -/
theorem seedFill_eval (mt : Buffer) (s : Word) (i : Nat) (hi : i < 624) :
    (seedFill mt s)[i] = seedFrom i 0 s := by
  rw [seedFill_getElem, ← Nat.zero_add i, ← seedFrom_eq]
  simp [seedWord]

/-- The n words that follow word i in the seeding recurrence, each evaluated. -/
def seedList : Nat → Nat → Word → List Word
  | 0, _, _ => []
  | n + 1, i, x => forceWord (seedNext x (i + 1)) fun y => y :: seedList n (i + 1) y

theorem seedList_getElem? (s : Word) (n i j : Nat) (hj : j < n) :
    (seedList n i (seedWord s i))[j]? = some (seedWord s (i + 1 + j)) := by
  induction n generalizing i j with
  | zero => omega
  | succ n ih =>
    rw [seedList, forceWord_eq]
    cases j with
    | zero => rfl
    | succ j =>
      rw [List.getElem?_cons_succ]
      exact (ih (i + 1) j (by omega)).trans (by rw [Nat.add_right_comm _ 1 j, Nat.add_assoc _ j 1])

theorem seedList_length (n i : Nat) (x : Word) : (seedList n i x).length = n := by
  induction n generalizing i x with
  | zero => rfl
  | succ n ih => simp [seedList, forceWord_eq, ih]

/-- A seeded buffer as an evaluated list. -/
theorem seedFill_toList (mt : Buffer) (s : Word) : (seedFill mt s).toList = s :: seedList 623 0 s := by
  apply List.ext_getElem?
  intro j
  by_cases hj : j < 624
  · rw [List.getElem?_eq_getElem (by simpa using hj)]
    rw [Vector.getElem_toList, seedFill_getElem mt s j hj]
    cases j with
    | zero => rfl
    | succ j =>
      rw [List.getElem?_cons_succ]
      exact ((seedList_getElem? s 623 0 j (by omega)).trans (by rw [Nat.zero_add, Nat.add_comm])).symm
  · rw [List.getElem?_eq_none (by simpa using hj), List.getElem?_eq_none (by simp [seedList_length]; omega)]

/-- A buffer seen from a walk at index i: the words below i − 1, nearest first, word i − 1, and the words
from i on. -/
structure Zipper where
  before : List Word
  prev : Word
  rest : List Word

/-- The words of a zipper, in the buffer's order. -/
def Zipper.words (z : Zipper) : List Word := z.before.reverse ++ z.prev :: z.rest

/-- The zipper shows the buffer of a walk, at the walk's index.  MT[0] need only agree where the next step
reads it, which is at i = 1. -/
structure Zipper.Shows (z : Zipper) (w : Walk) : Prop where
  tail : ∀ j, 1 ≤ j → w.mt.toList[j]? = z.words[j]?
  index : w.i.val = z.before.length + 1
  first : z.before = [] → w.mt.toList[0]? = some z.prev

/-- Write the word at the walk's index and go on to the next index; at the end of the buffer the walk starts
again, before the given first word. -/
def Zipper.advance (z : Zipper) (v first : Word) (rest : List Word) : Zipper :=
  match rest with
  | [] => ⟨[], first, (z.before.reverse ++ [z.prev, v]).tail⟩
  | r :: rs => ⟨z.prev :: z.before, v, r :: rs⟩

theorem Zipper.Shows.length {z : Zipper} {w : Walk} (h : z.Shows w) : z.words.length = 624 := by
  have hi := w.i.isLt
  have h1 : z.words[z.before.length + 1]? = some w.mt[w.i] := by
    rw [← h.tail _ (by omega), ← h.index]
    simp
  have h2 : z.words[624]? = none := by
    rw [← h.tail 624 (by decide)]
    simp
  have h3 := h.tail 623 (by decide)
  rw [List.getElem?_eq_getElem (by simp)] at h3
  have := (List.getElem?_eq_some_iff.mp h3.symm).1
  have := List.getElem?_eq_none_iff.mp h2
  omega

theorem Zipper.Shows.rest_ne_nil {z : Zipper} {w : Walk} (h : z.Shows w) : ∃ x rest, z.rest = x :: rest := by
  apply List.exists_cons_of_ne_nil
  intro hn
  have h1 := h.length
  have h2 := h.index
  have := w.i.isLt
  simp [Zipper.words, hn] at h1
  omega

theorem Zipper.Shows.reads {z : Zipper} {w : Walk} (h : z.Shows w) (x : Word) (rest : List Word)
    (hr : z.rest = x :: rest) (f : Word) : mixed f w = x ^^^ (foldTop z.prev * f) := by
  have hi := h.index
  have h1 : w.mt.toList[w.i.val]? = some x := by
    rw [h.tail _ (by omega), hi]
    simp [Zipper.words, hr]
  have h2 : w.mt.toList[w.i.val - 1]? = some z.prev := by
    rw [show w.i.val - 1 = z.before.length by omega]
    cases hb : z.before with
    | nil => exact h.first hb
    | cons b bs =>
      rw [h.tail _ (by simp)]
      simp [Zipper.words, hb]
  rw [List.getElem?_eq_getElem (by rw [Vector.length_toList]; omega), Vector.getElem_toList,
    Option.some_inj] at h1 h2
  rw [mixed, Fin.getElem_fin, h1, h2]

/-- Advancing the zipper follows a walk's step, whatever later happens to MT[0] while the index is above 1. -/
theorem Zipper.Shows.advance {z : Zipper} {w u : Walk} (h : z.Shows w) (x : Word) (rest : List Word)
    (hr : z.rest = x :: rest) (v first : Word) (hui : u.i = (w.writeAndAdvance v).i)
    (hu : ∀ j (hj : j < 624), j ≠ 0 → u.mt[j] = (w.writeAndAdvance v).mt[j])
    (h0 : rest = [] → u.mt[0] = first) : (z.advance v first rest).Shows u := by
  have hlen := h.length
  have hi := h.index
  have hset : ∀ j, 1 ≤ j → u.mt.toList[j]? = (z.before.reverse ++ z.prev :: v :: rest)[j]? := by
    intro j hj
    have hw : z.before.reverse ++ z.prev :: v :: rest = z.words.set (z.before.length + 1) v := by
      simp [Zipper.words, hr]
    rw [hw, List.getElem?_set]
    by_cases hj' : j < 624
    · rw [List.getElem?_eq_getElem (by simpa using hj'), Vector.getElem_toList, hu j hj' (by omega)]
      have hmt : (w.writeAndAdvance v).mt[j] = (w.mt.set w.i v)[j] := by
        by_cases hin : w.i.val + 1 < 624
        · rw [writeAndAdvance_inner w v hin]
        · have hl : w.i.val = 623 := by have := w.i.isLt; omega
          rw [writeAndAdvance_wrap w v hl]
          simp only [Vector.getElem_set, Ne.symm (Nat.one_le_iff_ne_zero.mp hj), if_false, hl]
      rw [hmt, Vector.getElem_set, hi]
      by_cases e : z.before.length + 1 = j
      · simp [e, hlen, hj']
      · simp only [if_neg e]
        rw [← h.tail j hj]
        simp [hj']
    · rw [List.getElem?_eq_none (by simpa using hj'), if_neg (by have := w.i.isLt; omega),
        List.getElem?_eq_none (by omega)]
  cases rest with
  | nil =>
    have hl : w.i.val = 623 := by
      simp [Zipper.words, hr] at hlen
      omega
    refine ⟨fun j hj => ?_, ?_, fun _ => ?_⟩
    · rw [hset j hj]
      obtain ⟨j, rfl⟩ : ∃ k, j = k + 1 := ⟨j - 1, by omega⟩
      simp [Zipper.advance, Zipper.words, List.getElem?_tail]
    · rw [hui, writeAndAdvance_wrap w v hl]
      rfl
    · simp [h0 rfl, Zipper.advance]
  | cons r rs =>
    have hl : w.i.val + 1 < 624 := by
      simp [Zipper.words, hr] at hlen
      omega
    refine ⟨fun j hj => ?_, ?_, fun hn => ?_⟩
    · rw [hset j hj]
      simp [Zipper.advance, Zipper.words]
    · rw [hui, writeAndAdvance_inner w v hl]
      simp [Zipper.advance, hi]
    · simp [Zipper.advance] at hn

/-- Phase 1 on a zipper, each word evaluated once (R45). -/
def zipPhase1 (key : List Word) : Nat → Nat → Zipper → Zipper
  | 0, _, z => z
  | n + 1, j, z =>
    match z.rest with
    | [] => z
    | x :: rest =>
      forceWord ((x ^^^ (foldTop z.prev * fMix1)) + (key.getD j 0 + BitVec.ofNat 32 j)) fun v =>
        zipPhase1 key n ((j + 1) % key.length) (z.advance v v rest)

/-- MT[0] after phase 2's wrap (R46). -/
def afterWrap (mode : Phase2Mode) (v : Word) : Word :=
  match mode with
  | .canonical => v
  | .sourceCompat => forcedW0

/-- Phase 2 on a zipper, each word evaluated once (R46). -/
def zipPhase2 (mode : Phase2Mode) : Nat → Zipper → Zipper
  | 0, z => z
  | n + 1, z =>
    match z.rest with
    | [] => z
    | x :: rest =>
      forceWord ((x ^^^ (foldTop z.prev * fMix2)) - BitVec.ofNat 32 (z.before.length + 1)) fun v =>
        zipPhase2 mode n (z.advance v (afterWrap mode v) rest)

/-- At a walk's wrap MT[0] is the word just written (R45, R46). -/
theorem Zipper.Shows.first_after {z : Zipper} {w : Walk} (h : z.Shows w) (x : Word) (hr : z.rest = [x])
    (v : Word) : (w.writeAndAdvance v).mt[0] = v := by
  have hlen := h.length
  have hl : w.i.val = 623 := by
    have hi := h.index
    simp [Zipper.words, hr] at hlen
    omega
  rw [writeAndAdvance_wrap w v hl]
  simp

theorem zipPhase1_shows (key : List Word) (n : Nat) (m : KeyWalk key.length) (z : Zipper) (h : z.Shows m.walk) :
    (zipPhase1 key n m.j.val z).Shows ((phase1Step key)^[n] m).walk := by
  induction n generalizing m z with
  | zero => exact h
  | succ n ih =>
    obtain ⟨x, rest, hr⟩ := h.rest_ne_nil
    rw [Function.iterate_succ_apply, zipPhase1, hr]
    simp only [forceWord_eq]
    have hk : key.getD m.j.val 0 + BitVec.ofNat 32 m.j.val = keyOperand key m.j := by
      simp [keyOperand]
    rw [hk, ← h.reads x rest hr, ← nextKeyIndex_val]
    refine ih (phase1Step key m) _ (h.advance x rest hr _ _ rfl (fun _ _ _ => rfl) fun hn => ?_)
    exact h.first_after x (hn ▸ hr) _

theorem zipPhase2_shows (mode : Phase2Mode) (n : Nat) (w : Walk) (z : Zipper) (h : z.Shows w) :
    (zipPhase2 mode n z).Shows ((phase2Step mode)^[n] w) := by
  induction n generalizing w z with
  | zero => exact h
  | succ n ih =>
    obtain ⟨x, rest, hr⟩ := h.rest_ne_nil
    rw [Function.iterate_succ_apply, zipPhase2, hr]
    simp only [forceWord_eq]
    rw [← h.reads x rest hr, ← h.index]
    refine ih _ _ (h.advance x rest hr _ _ (overwrite_index mode _)
      (fun j hj hne => overwrite_other mode _ j hj hne) fun hn => ?_)
    cases mode
    · exact h.first_after x (hn ▸ hr) _
    · simp [phase2Step, overwrite, afterWrap]

/-- What array seeding works on before its last write, as an evaluated zipper. -/
def zipMix (mode : Phase2Mode) (key : List Word) : Zipper :=
  zipPhase2 mode 623 (zipPhase1 key (max 624 key.length) 0 ⟨[], arrayBoot, seedList 623 0 arrayBoot⟩)

theorem zipPhases_show (mode : Phase2Mode) (z : Zipper) (key : List Word) (m : KeyWalk key.length)
    (h : z.Shows m.walk) (k n : Nat) :
    (zipPhase2 mode n (zipPhase1 key k m.j.val z)).Shows
      ((phase2Step mode)^[n] ((phase1Step key)^[k] m).walk) :=
  zipPhase2_shows mode _ _ _ (zipPhase1_shows key _ m _ h)

theorem zipMix_shows (mode : Phase2Mode) (mt : Buffer) (key : List Word) (h : 0 < key.length) :
    (zipMix mode key).Shows (phase2 mode (phase1 mt key h).walk) := by
  have hl : (phase1Start mt key h).walk.mt.toList = arrayBoot :: seedList 623 0 arrayBoot :=
    seedFill_toList mt arrayBoot
  have h0 : Zipper.Shows ⟨[], arrayBoot, seedList 623 0 arrayBoot⟩ (phase1Start mt key h).walk :=
    ⟨fun j _ => by rw [hl]; rfl, rfl, fun _ => by rw [hl]; rfl⟩
  unfold phase2 phase1
  exact zipPhases_show mode _ key _ h0 _ _

/-- An array-seeded buffer, by evaluation (R44 to R47). -/
theorem arrayMix_toList (mode : Phase2Mode) (mt : Buffer) (key : List Word) (h : 0 < key.length) :
    (arrayMix mode mt key h).toList = forcedW0 :: (zipMix mode key).words.tail := by
  have hs := zipMix_shows mode mt key h
  rw [arrayMix, Vector.toList_set]
  apply List.ext_getElem?
  intro j
  cases j with
  | zero => simp
  | succ j =>
    rw [List.getElem?_set_ne (by omega), hs.tail (j + 1) (by omega)]
    simp

/-- The first word of a refill comes from three old words (R49, R50). -/
theorem twist_getElem_zero (mt : Buffer) : (twist mt)[0] = twistCombine mt[0] mt[1] mt[397] := by
  unfold twist
  have key := fold_induction
    (P := fun n (b : Buffer) => (n = 0 → b = mt) ∧ (0 < n → b[0] = twistCombine mt[0] mt[1] mt[397]))
    (f := fun k h (mt : Buffer) => twistWord mt ⟨k, h⟩) (n := 624) mt
    ⟨fun _ => rfl, fun h => absurd h (Nat.lt_irrefl 0)⟩
    (fun k hk b hb => ⟨fun h => absurd h (Nat.succ_ne_zero k), fun _ => by
      by_cases h0 : k = 0
      · subst h0
        obtain rfl := hb.1 rfl
        exact twistWord_self b ⟨0, hk⟩
      · rw [twistWord_other b ⟨k, hk⟩ 0 (by decide) (Ne.symm h0)]
        exact hb.2 (Nat.pos_of_ne_zero h0)⟩)
  exact key.2 (by decide)

/-- The first output of an exhausted block, from the buffer as a list, each word evaluated once. -/
def firstOutput (words : List Word) : Word :=
  forceWord (words.getD 0 0) fun a =>
    forceWord (words.getD 1 0) fun b =>
      forceWord (words.getD 397 0) fun c => forceWord (twistCombine a b c) temper

/-- The word NEXT_U32 answers after a refill, by evaluation (R54). -/
theorem temper_twist_eval (mt : Buffer) : temper (twist mt)[0] = firstOutput mt.toList := by
  simp only [firstOutput, forceWord_eq, twist_getElem_zero]
  simp

end Sys2Proof.Machine
end

