-- ==== Sys2Proof/Laws/PerInstr.lean ====
section
/-! SUPPORT. One fact per instruction about its packet: the header's fields and the payload count
(30_encoding.md R33, R36). -/

namespace Sys2Proof.Laws.PacketShape

/-- The packet of an instruction carries its opcode, RSV = 0, and LEN for SEED_ARRAY's key alone. -/
def Statement (i : Instr) : Prop :=
  headerOp (encode i).header = i.opcode ∧ headerRsv (encode i).header = 0#4 ∧
    headerLen (encode i).header =
      (match i with
        | .seedScalar _ => 0#24
        | .seedArray key => BitVec.ofNat 24 key.length
        | .nextU32 => 0#24
        | .readStatus => 0#24) ∧
    (encode i).payload.length =
      (match i with
        | .seedScalar _ => 1
        | .seedArray key => key.length
        | .nextU32 => 0
        | .readStatus => 0)

theorem seedScalar (seed : Word) : Statement (.seedScalar seed) := by
  simp [Statement, encode, Instr.opcode]

theorem seedArray (key : List Word) : Statement (.seedArray key) := by
  simp [Statement, encode, Instr.opcode]

theorem nextU32 : Statement .nextU32 := by
  simp [Statement, encode, Instr.opcode]

theorem readStatus : Statement .readStatus := by
  simp [Statement, encode, Instr.opcode]

end Sys2Proof.Laws.PacketShape
end

