-- ==== Sys2Proof/Laws/Run.lean ====
section
/-! SUPPORT. Runs and sessions, one step and one command at a time. -/

namespace Sys2Proof.Machine

@[simp] theorem runSteps_zero (s : State) : runSteps 0 s = .next s := rfl

/-- A run of any machine of the host's form, one step unrolled. -/
theorem hostRun_succ (M : Host.Core) (k : Nat) (s t : M.State) (h : M.step s = .next t) :
    M.run (k + 1) s = M.run k t := by
  simp [Host.Core.run, h]

/-- A run of k + 1 steps is a step and a run of k. -/
theorem runSteps_succ (k : Nat) (s t : State) (h : step s = .next t) : runSteps (k + 1) s = runSteps k t :=
  hostRun_succ Sys2Proof.core k s t h

/-- Performing a command and taking its response always succeeds, and leaves the channels alone. -/
theorem performAndTake_cases (i : Instr) (s : State) :
    ∃ mt mti r, performAndTake i s = some (r, { s with mt := mt, mti := mti, response := none }) ∧
      exec i s = .next { s with mt := mt, mti := mti, response := some r } := by
  obtain ⟨mt, mti, r, h⟩ := exec_cases i s
  exact ⟨mt, mti, r, by simp [performAndTake, h, takeResponse], h⟩

/-- A session of one command more. -/
theorem session_cons (i : Instr) (is : List Instr) (s t : State) (r : Response)
    (h : performAndTake i s = some (r, t)) :
    session (i :: is) s = (session is t).map fun q => (r :: q.1, q.2) := by
  simp [session, h]

end Sys2Proof.Machine
end

