-- ==== Sys2Proof/Tests/Slice0.lean ====
section
/-! SUPPORT. Tests: expected values come from spec/ (95_test_vectors.md, or the rule named); each checks one
step or one procedure.  The second half holds, for every statement with hypotheses, a concrete case that
meets them. -/

namespace Sys2Proof.Machine

/-- The words of the response that performing a packet leaves. -/
def answer (p : Packet) (s : State) : List Word :=
  match performPacket p s with
  | .next t => (t.response.map Response.words).getD []
  | .fault _ => []
  | .refused _ => []

/-- The same state, but for the response. -/
def onlyAnswered (p : Packet) (s : State) : Bool :=
  match performPacket p s with
  | .next t => t.mti = s.mti && t.mt.toList = s.mt.toList && t.rx = s.rx && t.channel = s.channel
  | .fault _ => false
  | .refused _ => false

/-- A block in a given mode with a given cursor. -/
def blockAt (mode : Phase2Mode) (mti : BitVec 10) : State :=
  { State.resetOf ⟨mode⟩ (Vector.replicate 624 0) with mti := mti }

/-- The source's key (95_test_vectors.md E1). -/
def e1Key : List Word := [0x123, 0x234, 0x345, 0x456]

/-! ### Syntax, well-formedness, decoding -/

/-- A key that LEN cannot count is ill-formed (30_encoding.md R32, R36). -/
theorem test_key_too_long_is_ill_formed :
    (Instr.seedArray (List.replicate (2 ^ 24) 0)).wellFormed = false := by
  rw [Instr.wellFormed, List.length_replicate]
  decide

theorem test_longest_key_is_well_formed :
    (Instr.seedArray (List.replicate (2 ^ 24 - 1) 0)).wellFormed = true := by
  rw [Instr.wellFormed, List.length_replicate]
  decide

/-- P4, command 1: 00000001, 00001571. -/
theorem test_decode_seed_scalar : decode ⟨0x00000001, [0x00001571]⟩ = .instr (.seedScalar 5489) := by
  decide

/-- P2, command 1: 00000402 and the four key words. -/
theorem test_decode_seed_array : decode ⟨0x00000402, e1Key⟩ = .instr (.seedArray e1Key) := by decide

theorem test_decode_next_u32 : decode ⟨0x00000003, []⟩ = .instr .nextU32 := by decide

theorem test_decode_read_status : decode ⟨0x00000004, []⟩ = .instr .readStatus := by decide

/-- The encoder writes the header of E1: H = 0x00000402. -/
theorem test_encode_seed_array : encode (.seedArray e1Key) = ⟨0x00000402, e1Key⟩ := by decide

/-- The table's bits: the seed is the word above the header, and a short row's payload is zeros. -/
theorem test_table_words :
    decodeTableWord 64 0x0000157100000001 = some (.seedScalar 5489) ∧
      decodeTableWord 32 0x00000202 = some (.seedArray [0, 0]) ∧ decodeTableWord 32 0x00000005 = none := by
  decide

/-- V8: malformed packets and the response header of each. -/
def v8Rows : List (Packet × Word) :=
  [(⟨0x00000000, []⟩, 0x02), (⟨0x0000000F, []⟩, 0xf2), (⟨0xFFFFFFFF, []⟩, 0xf2), (⟨0x00000006, []⟩, 0x62),
    (⟨0x00000010, []⟩, 0x02), (⟨0x00000011, [5]⟩, 0x12), (⟨0x00000012, []⟩, 0x22), (⟨0x00000014, []⟩, 0x42),
    (⟨0x00000001, []⟩, 0x12), (⟨0x00000001, [1, 2]⟩, 0x12), (⟨0x00000101, [1]⟩, 0x12),
    (⟨0x00000002, [1]⟩, 0x22), (⟨0x00000102, []⟩, 0x22), (⟨0x00000002, []⟩, 0x21),
    (⟨0x00000003, [9]⟩, 0x32), (⟨0x00000104, []⟩, 0x42)]

theorem test_v8_error_responses : v8Rows.all (fun row => answer row.1 State.reset = [row.2]) = true := by
  decide +kernel

/-- V8, R70: an error changes nothing. -/
theorem test_v8_error_changes_nothing :
    onlyAnswered ⟨0x00000002, []⟩ (blockAt .canonical 1) = true ∧
      onlyAnswered ⟨0x00000202, [7]⟩ (blockAt .canonical 1) = true := by
  decide +kernel

/-! ### Commands -/

/-- V1: SeedFill(5489), word 623, through SEED_SCALAR. -/
theorem test_seed_scalar_word_623 :
    ∃ t, exec (.seedScalar 5489) State.reset = .next t ∧ t.mt[623] = 0x04c46d8c ∧ t.mti = 624 := by
  refine ⟨_, rfl, ?_, rfl⟩
  simp only [respond_mt]
  rw [seedFill_eval]
  decide +kernel

/-- V1: s = 0 gives MT[1] = 1, and s = 0xFFFFFFFF wraps. -/
theorem test_seed_fill_corners :
    (seedFill State.reset.mt 0)[1] = 0x00000001 ∧ (seedFill State.reset.mt 0xFFFFFFFF)[3] = 0xc1331af4 := by
  rw [seedFill_eval, seedFill_eval]
  decide +kernel

/-- V3: for key [0] the first phase-1 step writes MT[1] = 0xff8909b1. -/
theorem test_phase1_first_step :
    (phase1Step [0] (phase1Start State.reset.mt [0] (by decide))).walk.mt[1] = 0xff8909b1 := by
  have h0 := seedFill_eval State.reset.mt arrayBoot 0 (by decide)
  have h1 := seedFill_eval State.reset.mt arrayBoot 1 (by decide)
  rw [phase1Start]
  generalize seedFill State.reset.mt arrayBoot = b at h0 h1
  rw [phase1Step, writeAndAdvance_inner _ _ (show 1 + 1 < 624 by decide)]
  refine (Vector.getElem_set_self (xs := b) (i := 1) (hi := by decide)).trans ?_
  rw [mixed, show b[(1 : Fin 624)] = _ from h1, show b[(1 : Fin 624).val - 1] = _ from h0]
  show (seedFrom 1 0 arrayBoot ^^^ foldTop (seedFrom 0 0 arrayBoot) * fMix1) + keyOperand [0] 0 = 0xff8909b1
  decide +kernel

/-- E1, the source's vector: after SEED_ARRAY with the source's key under CANONICAL the first output is
1067595299. -/
theorem test_e1_first_output (h : 0 < e1Key.length) :
    temper (twist (arrayMix .canonical State.reset.mt e1Key h))[0] = 1067595299 := by
  rw [temper_twist_eval, arrayMix_toList]
  decide +kernel

/-- P6: the same under SOURCE_COMPAT gives 3353726958. -/
theorem test_p6_first_output (h : 0 < e1Key.length) :
    temper (twist (arrayMix .sourceCompat State.reset.mt e1Key h))[0] = 3353726958 := by
  rw [temper_twist_eval, arrayMix_toList]
  decide +kernel

/-- P1: from reset NEXT_U32 answers 00000030, 3499211612, and leaves MTI = 1. -/
theorem test_next_u32_from_reset :
    ∃ t r, exec .nextU32 State.reset = .next t ∧ t.mti = 1 ∧ t.response = some r ∧
      r.words = [0x00000030, 3499211612] := by
  refine ⟨_, _, rfl, ?_, rfl, ?_⟩
  · rw [emitWord_mti, refillIfDue_uninitialized _ rfl]
    rfl
  · have h : temper (twist (seedFill State.reset.mt defaultSeedValue))[0] = 3499211612 := by
      rw [temper_twist_eval, seedFill_toList]
      decide +kernel
    simp only [refillIfDue_uninitialized State.reset rfl]
    simp only [Response.words, Option.toList, List.cons.injEq, and_true]
    exact ⟨by decide, h⟩

/-- R54: MTI = 623 answers MT[623] tempered, with no refill, and leaves MTI = 624. -/
theorem test_next_u32_last_word :
    ∃ t, exec .nextU32 { blockAt .canonical 623 with mt := (Vector.replicate 624 0).set 623 1 } = .next t ∧
      t.mti = 624 ∧ t.response = some ⟨.ok, 3, some 0x00400091⟩ := by
  refine ⟨_, rfl, ?_, ?_⟩
  · rw [emitWord_mti, refillIfDue_ready _ (by decide)]
    rfl
  · rw [emitWord_response]
    simp only [refillIfDue_ready { blockAt .canonical 623 with mt := (Vector.replicate 624 0).set 623 1 }
      (by decide)]
    decide +kernel

/-- V9: the status word after reset, for both builds, and at MTI = 2 under SOURCE_COMPAT. -/
theorem test_v9_read_status :
    answer ⟨0x00000004, []⟩ State.reset = [0x40, 0x00000271] ∧
      answer ⟨0x00000004, []⟩ (blockAt .sourceCompat 625) = [0x40, 0x00010271] ∧
      answer ⟨0x00000004, []⟩ (blockAt .sourceCompat 2) = [0x40, 0x00010002] := by
  decide

/-- V5: TwistWord(0) from three given words, the four rows. -/
theorem test_v5_twist_word :
    twistCombine 0x80000000 0x00000001 0 = 0xd908b0df ∧ twistCombine 0x7fffffff 0xfffffffe 0 = 0x3fffffff ∧
      twistCombine 0 0 0x12345678 = 0x12345678 ∧
      twistCombine 0xffffffff 0xffffffff 0xffffffff = 0x1908b0df := by
  decide

/-- V6: tempered words. -/
theorem test_v6_temper :
    temper 0x00000001 = 0x00400091 ∧ temper 0x80000000 = 0x88102204 ∧ temper 0x12345678 = 0x2b7e4a2d ∧
      temper 0x9b0afa27 = 0xd091bb5c := by
  decide

/-! ### The step, the host, the assembler, the derived outputs -/

/-- A packet of the opcode table, placed by `withFetchWord`, is performed by the next step. -/
theorem test_step_performs_table_word :
    step (State.reset.withFetchWord 32 0x00000004) =
      .next { State.reset with response := some ⟨.ok, 4, some 0x00000271⟩ } := by
  rw [State.withFetchWord, step_offerPacket]
  rfl

/-- R86: the first two words of a packet are held. -/
theorem test_partial_packet_is_held :
    step { State.reset with channel := [⟨0x00000202, false⟩, ⟨7, false⟩] } =
      .next { State.reset with rx := [0x00000202, 7] } := by
  rfl

/-- R80: reset drops a partly received packet. -/
theorem test_reset_drops_the_packet :
    ∃ t, step { blockAt .canonical 5 with rx := [0x00000202, 7], moves := [.reset] } = .next t ∧ t.rx = [] ∧
      t.mti = 625 := by
  exact ⟨_, rfl, rfl, rfl⟩

/-- R41: the lines of P2 and P3, a comment, and the refusals. -/
theorem test_assemble_text :
    assembleText "SEED_ARRAY 0x123, 0x234, 0x345, 0x456 ; E1".toList = some [⟨0x00000402, e1Key⟩] ∧
      assembleText ".packet 0x00000202, 7".toList = some [⟨0x00000202, [7]⟩] ∧
      assembleText "SEED_ARRAY".toList = some [⟨0x00000002, []⟩] ∧
      assembleText "SEED_SCALAR 4294967296".toList = none ∧ assembleText "NEXT_U32 1".toList = none := by
  decide +kernel

theorem test_response_text : Response.text ⟨.ok, 3, some 3499211612⟩ = "-> OK 3499211612" := by
  decide +kernel

/-- V10: NEXT_U31, NEXT_REAL1, NEXT_REAL2 and NEXT_REAL3 of 3499211612. -/
theorem test_v10_derived :
    u31 3499211612 = 1749605806 ∧ real1 3499211612 = 0x3FEA12376B9A1237 ∧
      real2 3499211612 = 0x3FEA12376B800000 ∧ real3 3499211612 = 0x3FEA12376B900000 := by
  decide +kernel

/-- V10: NEXT_RES53 of the draws 3499211612 and 581869302, and NEXT_REAL1 at its upper end. -/
theorem test_v10_res53 :
    res53 3499211612 581869302 = 0x3FEA1237688ABA7B ∧ real1 0xFFFFFFFF = 0x3FF0000000000000 ∧
      res53 0xFFFFFFFF 0xFFFFFFFF = 0x3FEFFFFFFFFFFFFF := by
  decide +kernel

/-! ### Witnesses: the hypotheses of the statements are met -/

theorem witness_DecodeOfEncodeGivesTheCommand : (Instr.seedArray e1Key).wellFormed = true := by decide

theorem witness_DecodedPacketIsTheEncoding : decode ⟨0x00000102, [9]⟩ = .instr (.seedArray [9]) := by decide

theorem witness_PacketsAreCheckedInTheSpecsOrder :
    ∃ t r, performPacket ⟨0x00000002, []⟩ State.reset = .next t ∧ t.response = some r ∧
      r.res = .invalidArgument := by
  exact ⟨_, _, rfl, rfl, rfl⟩

/-- Each clause of "malformed", alone: OP 0, OP 5, RSV, LEN, and the payload counts. -/
theorem witness_MalformedPacketsAnswerIllegalCommand_malformed :
    (headerOp 0x00000000).toNat = 0 ∧ (headerOp 0x00000005).toNat = 5 ∧ headerRsv 0x00000013 ≠ 0 ∧
      ((headerLen 0x00000103).toNat = 1 ∧ (headerOp 0x00000103).toNat = 3) ∧
      (headerOp 0x00000001).toNat = 1 ∧ (headerLen 0x00000202).toNat = 2 := by
  decide

theorem witness_MalformedPacketsAnswerIllegalCommand_wellFormed :
    ∃ t r, performPacket ⟨0x00000004, []⟩ State.reset = .next t ∧ t.response = some r ∧ r.res = .ok := by
  exact ⟨_, _, rfl, rfl, rfl⟩

theorem witness_ErrorsLeaveTheStateUnchanged :
    ∃ t r, step (offerPacket ⟨0x00000005, []⟩ State.reset) = .next t ∧ t.response = some r ∧ r.res ≠ .ok := by
  exact ⟨_, _, rfl, rfl, by decide⟩

theorem witness_AssembledLinesDecodeToTheirCommands :
    2 ^ 32 - 1 < 2 ^ 32 ∧ (2 ^ 24 ≤ (List.replicate (2 ^ 24) 0).length) ∧
      ((List.replicate (2 ^ 24 - 1) 0).length < 2 ^ 24) ∧ (∃ n ∈ [0, 2 ^ 32], 2 ^ 32 ≤ n) ∧
      (∃ n ∈ [2 ^ 32], 2 ^ 32 ≤ n) ∧ AsmLine.nextReal3 ∈ [AsmLine.nextU31, .nextReal1, .nextReal2, .nextReal3] ∧
      ∀ n ∈ [2 ^ 32 - 1], n < 2 ^ 32 := by
  rw [List.length_replicate, List.length_replicate]
  decide

/-- The last index of the recurrence. -/
theorem witness_SeedFillFollowsTheRecurrence : 622 + 1 < 624 := by decide

theorem witness_Phase1MixesTheKeyIn : 0 < e1Key.length := by decide

/-- Phase 2 may start at either end of its range. -/
theorem witness_Phase2WalksTheBuffer :
    1 ≤ (Walk.mk State.reset.mt 1).i.val ∧ 1 ≤ (Walk.mk State.reset.mt 623).i.val := by
  decide

theorem witness_ArrayMixForcesTheFirstWord : 0 < [0#32].length ∧ (623 : Nat) ≠ 0 := by decide

/-- A key, the empty key, and a packet of each outcome: well-formed, RSV ≠ 0 alone, n ≠ LEN alone. -/
theorem witness_SeedArrayMixesOrRefusesTheEmptyKey :
    (0 < e1Key.length ∧ ([] : List Word) = []) ∧
      (headerOp 0x00000002 = 2#4 ∧ headerRsv 0x00000002 = 0#4 ∧ (headerLen 0x00000002).toNat = 0) ∧
      (headerOp 0x00000012 = 2#4 ∧ headerRsv 0x00000012 = 1#4) ∧
      (headerOp 0xffffff02 = 2#4 ∧ (headerLen 0xffffff02).toNat = 2 ^ 24 - 1) := by
  decide

/-- Packets with the operation of SEED_SCALAR that are none of its packets. -/
theorem witness_SeedScalarFillsAndExhausts :
    (headerOp 0x00000001 = 1#4 ∧ ∀ seed, (⟨0x00000001, []⟩ : Packet) ≠ ⟨0x00000001, [seed]⟩) ∧
      headerOp 0x00000101 = 1#4 ∧ ∀ seed, (⟨0x00000101, [7]⟩ : Packet) ≠ ⟨0x00000001, [seed]⟩ := by
  simp only [ne_eq, Packet.mk.injEq]
  exact ⟨⟨by decide, by simp⟩, by decide, by simp⟩

/-- A key with i0 = 1, and the shortest keys' i0 = 2. -/
theorem witness_SeedModesAgreeExactlyWhenTheSpecSays_start :
    0 < (List.replicate 1246 0#32).length ∧ phase2Start (List.replicate 1246 0#32).length = 1 ∧
      phase2Start e1Key.length = 2 := by
  rw [List.length_replicate]
  decide

/-- The source's key seeds differently in the two modes (V4). -/
theorem witness_SeedModesAgreeExactlyWhenTheSpecSays_differ (h : 0 < e1Key.length) :
    arrayMix .canonical State.reset.mt e1Key h ≠ arrayMix .sourceCompat State.reset.mt e1Key h := by
  intro e
  have h1 := test_e1_first_output h
  rw [e, test_p6_first_output h] at h1
  exact absurd h1 (by decide)

theorem witness_TwistWordRewritesOneWord : (623 : Nat) ≠ (0 : Fin 624).val := by decide

/-- The last index of each range. -/
theorem witness_TwistReadsOldAndNewWordsByRange : (226 < 227) ∧ (227 ≤ 622 ∧ 622 < 623) := by decide

theorem witness_TwistWordBitByBit : 29 ≤ 29 ∧ 0 ≤ 29 := by decide

/-- The last row of the tree: bit 31 of Temper(0x01000000) and of no other power of two below it. -/
theorem witness_TemperIsTheXorTree :
    [[0], [31, 27, 24, 16]][1]? = some [31, 27, 24, 16] ∧ (temper 0x01000000).getLsbD 31 = true ∧
      (temper 0x00800000).getLsbD 31 = false := by
  decide

theorem witness_TemperTakesItsFourSteps :
    ∃ y1 y2 y3 : Word, y1 = 1 ^^^ ((1 : Word) >>> 11) ∧ y2 = y1 ^^^ ((y1 <<< 7) &&& 0x9d2c5680) ∧
      y3 = y2 ^^^ ((y2 <<< 15) &&& 0xefc60000) ∧ y3 ^^^ (y3 >>> 18) = 0x00400091 :=
  ⟨_, _, _, rfl, rfl, rfl, by decide⟩

/-- One state for each clause, at the ends of the ranges. -/
theorem witness_NextU32AnswersTheNextTemperedWord :
    (blockAt .canonical 0).mti.toNat < 624 ∧ (blockAt .canonical 623).mti.toNat < 624 ∧
      (blockAt .canonical 624).mti = 624 ∧ (blockAt .canonical 625).mti = 625 ∧
      (headerOp 0x00000003 = 3#4 ∧ (⟨0x00000003, [9]⟩ : Packet) ≠ ⟨0x00000003, []⟩) := by
  decide

theorem witness_ReadStatusAnswersTheStatusWord :
    headerOp 0x00000104 = 4#4 ∧ (⟨0x00000104, []⟩ : Packet) ≠ ⟨0x00000004, []⟩ := by
  decide

theorem witness_PhaseChangesAsTheSpecSays :
    (blockAt .canonical 623).mti.toNat ≤ 625 ∧ (blockAt .canonical 625).phase ≠ .ready ∧ e1Key ≠ [] ∧
      (∃ t, exec (.seedArray e1Key) State.reset = .next t) ∧
      (∃ t r, performPacket ⟨0x00000002, []⟩ State.reset = .next t ∧ t.response = some r ∧ r.res ≠ .ok) ∧
      (∃ t, exec .nextU32 State.reset = .next t) := by
  exact ⟨by decide, by decide, by decide, ⟨_, rfl⟩, ⟨_, _, rfl, rfl, by decide⟩, ⟨_, rfl⟩⟩

theorem witness_OnlyNextU32IsADestructiveRead :
    Instr.readStatus ≠ .nextU32 ∧ ∃ t, exec .nextU32 State.reset = .next t := by
  exact ⟨by decide, _, rfl⟩

theorem witness_ScalarSeedErasesHistory :
    ∀ i ∈ [Instr.nextU32, .seedScalar 7], i = .nextU32 ∨ ∃ x, i = .seedScalar x := by
  simp

theorem witness_ArraySeedErasesHistory :
    e1Key ≠ [] ∧ (blockAt .sourceCompat 3).cfg = (blockAt .sourceCompat 625).cfg := by
  decide

theorem witness_StreamAfterASeedRefillsEvery624Calls : (blockAt .canonical 624).mti = 624 ∧ 624 < 625 := by
  decide

theorem witness_UninitializedStreamIsThatOfSeed5489 : State.reset.mti = 625 := by decide

theorem witness_StepPerformsTheDecodedCommand :
    State.reset.response = none ∧ State.reset.rx = [] ∧
      { State.reset with channel := [⟨0x00000003, true⟩] }.channel = channelWords ⟨0x00000003, []⟩ ++ [] ∧
      decode ⟨0x00000003, []⟩ = .instr .nextU32 := by
  decide

theorem witness_PacketMayArriveInPieces :
    ({ State.reset with channel := [⟨0x00000001, false⟩] }.channel ≠ [] ∧
      ∀ x ∈ [(⟨0x00000001, false⟩ : ChannelWord)], x.last = false) ∧
    ({ State.reset with rx := [0x00000202] }.rx ++ [(⟨7, false⟩ : ChannelWord)].map (·.word) ++ [8] =
      0x00000202 :: [7, 8] ∧ ∀ x ∈ [(⟨7, false⟩ : ChannelWord)], x.last = false) := by
  decide

theorem witness_StepKeepsTheInvariant : ∃ t, State.reset.Inv ∧ step State.reset = .next t :=
  ⟨State.reset, ⟨by decide, fun h => absurd rfl h, fun r h => by cases h⟩, rfl⟩

theorem witness_OnlyResetUninitializesTheBlock :
    (∃ t, step { blockAt .canonical 5 with moves := [.reset] } = .next t ∧ t.mti = 625) ∧
      ∃ t r, exec (.seedScalar 1) State.reset = .next t ∧ t.response = some r ∧ r.res = .ok :=
  ⟨⟨_, rfl, rfl⟩, _, _, rfl, rfl, rfl⟩

theorem witness_NoStepChangesTheBuild :
    ∃ t, step (offerPacket ⟨0x00000003, []⟩ (blockAt .sourceCompat 1)) = .next t :=
  ⟨_, rfl⟩

theorem witness_UninitializedContentsAreUnobservable : (blockAt .sourceCompat 625).mti = 625 := by decide

theorem witness_HostCanHoldTheBlock :
    ({ State.reset with response := some ⟨.ok, 1, none⟩ }.response ≠ none ∧
      ∀ m ∈ [HostMove.send [⟨3, true⟩]], m ≠ .take ∧ m ≠ .reset) ∧
    (∀ x ∈ [(⟨0x00000202, false⟩ : ChannelWord)], x.last = false) ∧
      ∀ m ∈ [HostMove.take], m ≠ .reset ∧ ∀ ws, m = .send ws → ∀ x ∈ ws, x.last = false := by
  simp

theorem witness_ResetMoveEntersTheResetState :
    { State.reset with moves := [.reset], response := some ⟨.ok, 1, none⟩ }.moves = .reset :: [] ∧
      ({ State.reset with response := some ⟨.ok, 1, none⟩ }.response ≠ none ∨ State.reset.channel = []) := by
  decide

theorem witness_StepsOfAHostAreTheSession :
    (∀ i ∈ [Instr.seedArray e1Key, .nextU32], i.wellFormed = true) ∧ State.reset.idle ∧
      { State.reset with moves := sessionMoves [.seedArray e1Key, .nextU32] }.moves =
        sessionMoves [.seedArray e1Key, .nextU32] ++ [] :=
  ⟨by decide, ⟨rfl, rfl, rfl⟩, by simp⟩

/-- Two draws, one after the other: the hypotheses of NextU31HalvesTheDraw,
NextReal1RoundsTheProduct, NextReal2IsExact, NextReal3IsExact and NextRes53IsExact. -/
theorem witness_NextRes53IsExact :
    ∃ r t r' t', draw State.reset = some (r, t) ∧ draw t = some (r', t') :=
  ⟨_, _, _, _, rfl, rfl⟩

/-- The ends of the range, 2^53 - 1 and 2^-1000, and a value to compare with. -/
theorem witness_RoundingIsToNearest :
    (0 < 9007199254740991 ∧ 9007199254740991 < 1 * 2 ^ 53) ∧
      (∃ e, e = 1000 ∧ 1 ≤ 9007199254740991 * 2 ^ e ∧ 0 < 2 ^ e ∧ 1 < 2 ^ e * 2 ^ 53 ∧ 2 ^ e ≤ 1 * 2 ^ e) ∧
      (fl 9007199254740991 1).finiteNonneg = true := by
  refine ⟨by decide, ⟨_, rfl, ?_⟩, by decide +kernel⟩
  generalize 1000 = e
  have := Nat.two_pow_pos e
  omega

/-- D18: halves between two binary64 values go to the even significand, down and up.  The two sums are
2^52 + 1/2 and 2^52 + 3/2. -/
theorem test_ties_go_to_even :
    fl (2 ^ 53 + 1) 2 = 0x4330000000000000 ∧ fl (2 ^ 53 + 3) 2 = 0x4330000000000002 := by
  decide +kernel

end Sys2Proof.Machine
end

section
/-! PROOFS. The state of the block as a whole (10_state.md): what each command answers, the phase of a cursor
(R10), and the status word bit by bit (R15). -/

namespace Sys2Proof.Machine

/-! ### What each command answers -/

theorem exec_seedScalar (seed : Word) (s : State) :
    exec (.seedScalar seed) s =
      .next (respond .ok 0x1#4 none { s with mt := seedFill s.mt seed, mti := 624#10 }) :=
  rfl

theorem exec_seedArray {key : List Word} (h : 0 < key.length) (s : State) :
    exec (.seedArray key) s =
      .next (respond .ok 0x2#4 none
        { s with mt := arrayMix s.cfg.seedPhase2Mode s.mt key h, mti := 624#10 }) :=
  congrArg Host.Outcome.next (dif_pos h)

theorem exec_seedArray_nil (s : State) :
    exec (.seedArray []) s = .next (respond .invalidArgument 0x2#4 none s) :=
  rfl

theorem exec_nextU32 (s : State) :
    exec .nextU32 s = .next (emitWord (refillIfDue s) (refillIfDue_mti_lt s)) :=
  rfl

theorem exec_readStatus (s : State) :
    exec .readStatus s = .next (respond .ok 0x4#4 (some (statusWord s)) s) :=
  rfl

/-- The cursor from which NEXT_U32 reads its word (R54). -/
theorem refillIfDue_mti (s : State) :
    (refillIfDue s).mti = if s.mti.toNat < 624 then s.mti else 0#10 := by
  by_cases h : s.mti.toNat < 624
  · rw [refillIfDue_ready s h, if_pos h]
  · rw [refillIfDue, if_pos (Nat.not_lt.mp h), if_neg h, refill_mti]

/-- NEXT_U32 advances a ready block's cursor by one and otherwise leaves it at 1 (R54). -/
theorem mti_of_exec_nextU32 {s t : State} (h : exec .nextU32 s = .next t) :
    t.mti = if s.mti.toNat < 624 then s.mti + 1#10 else 1#10 := by
  cases (exec_nextU32 s).symm.trans h
  rw [emitWord_mti, refillIfDue_mti]
  split <;> rfl

/-! ### Errors change nothing but the response -/

/-- The one command that answers an error is SEED_ARRAY with the empty key (R48). -/
theorem exec_error_frame {i : Instr} {s t : State} {r : Response} (h : exec i s = .next t)
    (hr : t.response = some r) (he : r.res ≠ .ok) : t = { s with response := some r } := by
  cases i with
  | seedScalar seed =>
    cases (exec_seedScalar seed s).symm.trans h
    cases hr
    exact absurd rfl he
  | seedArray key =>
    cases key with
    | nil =>
      cases (exec_seedArray_nil s).symm.trans h
      cases hr
      rfl
    | cons w ws =>
      cases (exec_seedArray (key := w :: ws) (Nat.succ_pos _) s).symm.trans h
      cases hr
      exact absurd rfl he
  | nextU32 =>
    cases (exec_nextU32 s).symm.trans h
    cases hr
    exact absurd rfl he
  | readStatus =>
    cases (exec_readStatus s).symm.trans h
    cases hr
    exact absurd rfl he

/-- A packet answered with an error, by the decoder or by its command, changes the response alone
(60_exceptions.md R70). -/
theorem performPacket_error_frame {p : Packet} {s t : State} {r : Response}
    (h : performPacket p s = .next t) (hr : t.response = some r) (he : r.res ≠ .ok) :
    t = { s with response := some r } := by
  unfold performPacket at h
  split at h
  · exact exec_error_frame h hr he
  · cases h
    cases hr
    rfl

/-! ### The phase of a cursor (R10) -/

theorem phase_eq_ready_iff (s : State) : s.phase = .ready ↔ s.mti.toNat < 624 := by
  unfold State.phase
  split
  case isTrue h => simp [h]
  case isFalse h => split <;> simp [h]

theorem phase_eq_uninitialized_iff (s : State) : s.phase = .uninitialized ↔ s.mti = 625#10 := by
  unfold State.phase
  split
  case isTrue h =>
    have : s.mti ≠ 625#10 := fun hu => absurd (hu ▸ h) (by decide)
    simp [this]
  case isFalse h => split <;> simp [*]

theorem phase_eq_exhausted_iff (s : State) :
    s.phase = .exhausted ↔ 624 ≤ s.mti.toNat ∧ s.mti ≠ 625#10 := by
  unfold State.phase
  split
  case isTrue h => simp [Nat.not_le.mpr h]
  case isFalse h => split <;> simp [*, Nat.not_lt.mp h]

/-- The cursor alone decides the phase. -/
theorem phase_congr {s t : State} (h : t.mti = s.mti) : t.phase = s.phase := by
  rw [State.phase, State.phase, h]

/-- The cursor that a completed seed command leaves is that of an exhausted block (R43, R48). -/
theorem phase_of_mti_624 {s : State} (h : s.mti = 624#10) : s.phase = .exhausted := by
  rw [phase_eq_exhausted_iff, h]
  decide

/-- The last word of the buffer leaves the block exhausted; any other draw leaves it ready (R10, R54). -/
theorem phase_of_exec_nextU32 {s t : State} (h : exec .nextU32 s = .next t) :
    t.phase = if s.mti.toNat = 623 then .exhausted else .ready := by
  have ht := mti_of_exec_nextU32 h
  split
  case isTrue hlast =>
    have hs : s.mti = 623#10 := BitVec.eq_of_toNat_eq hlast
    rw [hs] at ht
    exact phase_of_mti_624 ht
  case isFalse hlast =>
    rw [phase_eq_ready_iff, ht]
    split
    · rw [BitVec.toNat_add, BitVec.toNat_ofNat]
      omega
    · decide

/-! ### The status word, bit by bit (R15) -/

theorem getLsbD_code (m : Phase2Mode) (i : Nat) :
    m.code.getLsbD i = (decide (i = 0) && decide (m = .sourceCompat)) := by
  cases m <;> simp [Phase2Mode.code, BitVec.getLsbD_one]

/-- MTI in the low bits and MODE in bit 16. -/
theorem getLsbD_statusWord (s : State) (i : Nat) :
    (statusWord s).getLsbD i =
      (s.mti.getLsbD i || (decide (i = 16) && decide (s.cfg.seedPhase2Mode = .sourceCompat))) := by
  by_cases h : i < 32
  · have hmode : (!decide (i < 16) && decide (i - 16 = 0)) = decide (i = 16) := by
      rw [Bool.eq_iff_iff]
      simp
      omega
    simp only [statusWord, BitVec.getLsbD_or, BitVec.getLsbD_setWidth, BitVec.getLsbD_shiftLeft, getLsbD_code,
      h, decide_true, Bool.true_and, ← Bool.and_assoc, hmode]
  · rw [BitVec.getLsbD_of_ge _ i (by omega), BitVec.getLsbD_of_ge s.mti i (by omega)]
    simp [show i ≠ 16 by omega]

/-- A field of the status word above MTI and beside bit 16 reads 0. -/
theorem extractLsb'_statusWord_eq_zero (s : State) {start len : Nat} (hlo : 10 ≤ start)
    (h16 : start + len ≤ 16 ∨ 16 < start) : (statusWord s).extractLsb' start len = 0#len := by
  ext i hi
  rw [BitVec.getElem_extractLsb', getLsbD_statusWord, BitVec.getLsbD_of_ge s.mti _ (by omega)]
  simp [show start + i ≠ 16 by omega]

theorem extractLsb'_statusWord_mti (s : State) : (statusWord s).extractLsb' 0 10 = s.mti := by
  ext i hi
  simp [getLsbD_statusWord, show i ≠ 16 by omega, BitVec.getLsbD_eq_getElem hi]

theorem getLsbD_statusWord_mode (s : State) :
    (statusWord s).getLsbD 16 = decide (s.cfg.seedPhase2Mode = .sourceCompat) := by
  rw [getLsbD_statusWord, BitVec.getLsbD_of_ge s.mti 16 (by decide)]
  simp

theorem statusWord_reset_canonical (mt : Buffer) :
    statusWord (State.resetOf ⟨.canonical⟩ mt) = 0x00000271#32 := by
  rw [statusWord, resetOf_mti, resetOf_cfg]
  decide

theorem statusWord_reset_sourceCompat (mt : Buffer) :
    statusWord (State.resetOf ⟨.sourceCompat⟩ mt) = 0x00010271#32 := by
  rw [statusWord, resetOf_mti, resetOf_cfg]
  decide

/-! ### The obligations -/

/-- Settles O28: the cursor decides the phase, so each clause follows from the cursor that the command
leaves. -/
theorem phaseChangesAsTheSpecSays : Obligations.PhaseChangesAsTheSpecSays := by
  intro s hs
  have huninit : s.mti = 625#10 ↔ s.mti.toNat = 625 := BitVec.toNat_inj.symm
  refine ⟨⟨?_, ?_, ?_⟩, fun t h => ⟨phase_of_exec_nextU32 h, fun hp => ?_⟩, fun seed t h => ?_,
    fun key t hne h => ?_, fun p t r h hr he => ?_, fun t h => ?_⟩
  · rw [phase_eq_ready_iff]
    omega
  · rw [phase_eq_exhausted_iff, ne_eq, huninit]
    omega
  · rw [phase_eq_uninitialized_iff, huninit]
  · rw [mti_of_exec_nextU32 h, if_neg (mt (phase_eq_ready_iff s).mpr hp)]
  · cases (exec_seedScalar seed s).symm.trans h
    exact phase_of_mti_624 rfl
  · cases (exec_seedArray (List.length_pos_iff.mpr hne) s).symm.trans h
    exact phase_of_mti_624 rfl
  · cases performPacket_error_frame h hr he
    exact ⟨rfl, rfl, phase_congr rfl⟩
  · cases (exec_readStatus s).symm.trans h
    exact ⟨rfl, rfl, phase_congr rfl⟩

/-- Settles O25: the fields are read off the word's bits; the reset values do not look at the buffer. -/
theorem statusWordHasItsFields : Obligations.StatusWordHasItsFields :=
  ⟨fun s => ⟨exec_readStatus s, rfl, extractLsb'_statusWord_mti s,
      extractLsb'_statusWord_eq_zero s (by decide) (by decide), getLsbD_statusWord_mode s,
      extractLsb'_statusWord_eq_zero s (by decide) (by decide)⟩,
    fun mt => ⟨statusWord_reset_canonical mt, statusWord_reset_sourceCompat mt⟩⟩

end Sys2Proof.Machine
end

section
/-! PROOFS. The decode procedure (30_encoding.md R37, R40): which packets the decoder refuses, what each packet
is answered, and the two statements about it. -/

namespace Sys2Proof

/-- R40's four causes: the operation, RSV, LEN on an operation other than SEED_ARRAY, the payload count. -/
def Packet.Malformed (p : Packet) : Prop :=
  ((headerOp p.header).toNat = 0 ∨ 5 ≤ (headerOp p.header).toNat) ∨ headerRsv p.header ≠ 0#4 ∨
    ((headerLen p.header).toNat ≠ 0 ∧ (headerOp p.header).toNat ≠ 2) ∨
    ((headerOp p.header).toNat = 1 ∧ p.payload.length ≠ 1) ∨
    ((headerOp p.header).toNat = 2 ∧ p.payload.length ≠ (headerLen p.header).toNat) ∨
    (((headerOp p.header).toNat = 3 ∨ (headerOp p.header).toNat = 4) ∧ p.payload.length ≠ 0)

/-! ### Each operation's packets: when they are malformed, and what they decode to otherwise -/

section Decode
variable {p : Packet}

theorem malformed_of_reservedOp (h1 : headerOp p.header ≠ 1#4) (h2 : headerOp p.header ≠ 2#4)
    (h3 : headerOp p.header ≠ 3#4) (h4 : headerOp p.header ≠ 4#4) : p.Malformed :=
  .inl (by bv_omega)

variable (hr : headerRsv p.header = 0#4)
include hr

theorem malformed_seedScalar_iff (ho : headerOp p.header = 1#4) :
    p.Malformed ↔ (headerLen p.header).toNat ≠ 0 ∨ p.payload.length ≠ 1 := by
  simp [Packet.Malformed, hr, ho]

theorem malformed_seedArray_iff (ho : headerOp p.header = 2#4) :
    p.Malformed ↔ p.payload.length ≠ (headerLen p.header).toNat := by
  simp [Packet.Malformed, hr, ho]

theorem malformed_bare_iff (ho : headerOp p.header = 3#4 ∨ headerOp p.header = 4#4) :
    p.Malformed ↔ (headerLen p.header).toNat ≠ 0 ∨ p.payload.length ≠ 0 := by
  obtain ho | ho := ho <;> simp [Packet.Malformed, hr, ho]

theorem decode_seedScalar (ho : headerOp p.header = 1#4) (h : ¬p.Malformed) :
    decode p = .instr (.seedScalar (p.payload.headD 0#32)) := by
  simp only [malformed_seedScalar_iff hr ho, not_or, not_not] at h
  obtain ⟨hl, hn⟩ := h
  simp [decode, hr, ho, BitVec.eq_of_toNat_eq (y := 0#24) hl, decodeSeedScalar_eq, hn]

theorem decode_seedArray (ho : headerOp p.header = 2#4) (h : ¬p.Malformed) :
    decode p = .instr (.seedArray p.payload) := by
  rw [malformed_seedArray_iff hr ho, not_not] at h
  simp [decode, hr, ho, h]

theorem decode_nextU32 (ho : headerOp p.header = 3#4) (h : ¬p.Malformed) : decode p = .instr .nextU32 := by
  simp only [malformed_bare_iff hr (.inl ho), not_or, not_not] at h
  obtain ⟨hl, hn⟩ := h
  simp [decode, hr, ho, BitVec.eq_of_toNat_eq (y := 0#24) hl, decodeBare_eq, hn]

theorem decode_readStatus (ho : headerOp p.header = 4#4) (h : ¬p.Malformed) :
    decode p = .instr .readStatus := by
  simp only [malformed_bare_iff hr (.inr ho), not_or, not_not] at h
  obtain ⟨hl, hn⟩ := h
  simp [decode, hr, ho, BitVec.eq_of_toNat_eq (y := 0#24) hl, decodeBare_eq, hn]

end Decode

/-- The packet of a SEED_ARRAY, read back from its command. -/
theorem eq_of_decode_seedArray {p : Packet} {key : List Word} (h : decode p = .instr (.seedArray key)) :
    p = ⟨mkHeader 2#4 0#4 (headerLen p.header), key⟩ ∧ (headerLen p.header).toNat = key.length := by
  simp only [decode, decodeSeedScalar_eq, decodeBare_eq] at h
  split_ifs at h with hr h1 _ _ h2 hn <;> cases h
  refine ⟨?_, hn.symm⟩
  rw [← h2, ← not_not.mp hr, mkHeader_fields]

/-- A packet that decodes has none of R40's four causes. -/
theorem not_malformed_of_decode {p : Packet} {i : Instr} (h : decode p = .instr i) : ¬p.Malformed := by
  simp only [decode, decodeSeedScalar_eq, decodeBare_eq] at h
  split_ifs at h with hr h1 hl hn h2 hn h3 hl hn h4 hl hn <;> cases h
  · simp [malformed_seedScalar_iff (not_not.mp hr) h1, not_not.mp hl, hn]
  · simp [malformed_seedArray_iff (not_not.mp hr) h2, hn]
  · simp [malformed_bare_iff (not_not.mp hr) (.inl h3), not_not.mp hl, hn]
  · simp [malformed_bare_iff (not_not.mp hr) (.inr h4), not_not.mp hl, hn]

/-- A packet with none of R40's four causes decodes. -/
theorem decode_of_not_malformed {p : Packet} (h : ¬p.Malformed) : ∃ i, decode p = .instr i := by
  have hr : headerRsv p.header = 0#4 := by_contra fun hr => h (.inr (.inl hr))
  by_cases h1 : headerOp p.header = 1#4
  · exact ⟨_, decode_seedScalar hr h1 h⟩
  by_cases h2 : headerOp p.header = 2#4
  · exact ⟨_, decode_seedArray hr h2 h⟩
  by_cases h3 : headerOp p.header = 3#4
  · exact ⟨_, decode_nextU32 hr h3 h⟩
  by_cases h4 : headerOp p.header = 4#4
  · exact ⟨_, decode_readStatus hr h4 h⟩
  exact absurd (malformed_of_reservedOp h1 h2 h3 h4) h

end Sys2Proof

namespace Sys2Proof.Machine

/-! ### What a packet is answered -/

theorem performPacket_of_decode {p : Packet} {i : Instr} (h : decode p = .instr i) (s : State) :
    performPacket p s = exec i s := by
  rw [performPacket, h]

theorem performPacket_of_malformed {p : Packet} (h : p.Malformed) (s : State) :
    performPacket p s = .next (respond .illegalCommand (headerOp p.header) none s) := by
  cases hd : decode p with
  | instr i => exact absurd h (not_malformed_of_decode hd)
  | illegal c => rw [performPacket, hd, raiseError_eq]

/-- A command is answered OK, or INVALID_ARGUMENT if it is SEED_ARRAY with the empty key (R35). -/
theorem res_of_exec {i : Instr} {s t : State} {r : Response} (h : exec i s = .next t)
    (hr : t.response = some r) : r.res = if i = .seedArray [] then .invalidArgument else .ok := by
  cases i with
  | seedScalar seed =>
    cases (exec_seedScalar seed s).symm.trans h
    cases hr
    rfl
  | seedArray key =>
    cases key with
    | nil =>
      cases (exec_seedArray_nil s).symm.trans h
      cases hr
      rfl
    | cons w ws =>
      cases (exec_seedArray (key := w :: ws) (Nat.succ_pos _) s).symm.trans h
      cases hr
      rfl
  | nextU32 =>
    cases (exec_nextU32 s).symm.trans h
    cases hr
    rfl
  | readStatus =>
    cases (exec_readStatus s).symm.trans h
    cases hr
    rfl

/-- INVALID_ARGUMENT reports the empty key, which one packet carries (R37). -/
theorem eq_of_performPacket_invalidArgument {p : Packet} {s t : State} {r : Response}
    (h : performPacket p s = .next t) (hr : t.response = some r) (he : r.res = .invalidArgument) :
    p = ⟨0x00000002#32, []⟩ := by
  cases hd : decode p with
  | illegal c =>
    rw [performPacket, hd] at h
    cases h
    cases hr
    cases he
  | instr i =>
    have hi : i = .seedArray [] := by
      rw [performPacket_of_decode hd] at h
      simpa [he] using res_of_exec h hr
    subst hi
    obtain ⟨hp, hlen⟩ := eq_of_decode_seedArray hd
    have hzero : headerLen p.header = 0#24 := BitVec.eq_of_toNat_eq hlen
    rw [hp, hzero]
    rfl

/-! ### The obligations -/

/-- Settles O4: each refusal of R37's procedure is one of R40's four causes, and a packet that passes the
checks of its operation decodes to that operation. -/
theorem packetsAreCheckedInTheSpecsOrder : Obligations.PacketsAreCheckedInTheSpecsOrder := by
  intro p s op rsv len n illegal
  refine ⟨?_, fun t r => eq_of_performPacket_invalidArgument⟩
  have hillegal (h : p.Malformed) : performPacket p s = illegal := performPacket_of_malformed h s
  have hexec {i : Instr} (h : decode p = .instr i) : performPacket p s = exec i s :=
    performPacket_of_decode h s
  by_cases hr : rsv = 0#4
  case neg =>
    rw [if_pos hr]
    exact hillegal (.inr (.inl hr))
  rw [if_neg (not_not.mpr hr)]
  split_ifs with h1 hc h2 hc hl h3 hc h4 hc
  · exact hillegal ((malformed_seedScalar_iff hr h1).mpr hc)
  · exact hexec (decode_seedScalar hr h1 (mt (malformed_seedScalar_iff hr h1).mp hc))
  · exact hillegal ((malformed_seedArray_iff hr h2).mpr hc)
  · have hkey : p.payload = [] := List.length_eq_zero_iff.mp ((not_not.mp hc).trans hl)
    rw [hexec (decode_seedArray hr h2 (mt (malformed_seedArray_iff hr h2).mp hc)), hkey]
    exact exec_seedArray_nil s
  · exact hexec (decode_seedArray hr h2 (mt (malformed_seedArray_iff hr h2).mp hc))
  · exact hillegal ((malformed_bare_iff hr (.inl h3)).mpr hc)
  · exact hexec (decode_nextU32 hr h3 (mt (malformed_bare_iff hr (.inl h3)).mp hc))
  · exact hillegal ((malformed_bare_iff hr (.inr h4)).mpr hc)
  · exact hexec (decode_readStatus hr h4 (mt (malformed_bare_iff hr (.inr h4)).mp hc))
  · exact hillegal (malformed_of_reservedOp h1 h2 h3 h4)

/-- Settles O5: the decoder refuses exactly the malformed packets, and no command answers
ILLEGAL_COMMAND. -/
theorem malformedPacketsAnswerIllegalCommand : Obligations.MalformedPacketsAnswerIllegalCommand := by
  intro p s
  refine ⟨fun hm => performPacket_of_malformed hm s, fun hm t r h hr => ?_⟩
  obtain ⟨i, hi⟩ := decode_of_not_malformed hm
  rw [performPacket_of_decode hi] at h
  rw [res_of_exec h hr]
  split <;> decide

end Sys2Proof.Machine
end

section
/-! PROOFS. The packets of one operation (30_encoding.md R37): an operation whose packets carry no LEN has one
header, so every other packet with that OP is malformed. -/

namespace Sys2Proof

/-- A header with LEN = 0 and RSV = 0 is fixed by its operation (R32). -/
theorem eq_mkHeader_of_len_zero {h : Word} (hr : headerRsv h = 0#4) (hl : (headerLen h).toNat = 0) :
    h = mkHeader (headerOp h) 0#4 0#24 := by
  rw [← hr, ← BitVec.eq_of_toNat_eq (y := 0#24) hl, mkHeader_fields]

/-- A packet with none of R40's four causes has RSV = 0. -/
theorem rsv_eq_zero_of_not_malformed {p : Packet} (h : ¬p.Malformed) : headerRsv p.header = 0#4 :=
  by_contra fun hr => h (.inr (.inl hr))

/-- SEED_SCALAR has no packets but 0x00000001 with a seed (R33, R37). -/
theorem malformed_of_ne_seedScalar {p : Packet} (ho : headerOp p.header = 1#4)
    (hne : ∀ seed, p ≠ ⟨0x00000001#32, [seed]⟩) : p.Malformed := by
  by_contra h
  have hr := rsv_eq_zero_of_not_malformed h
  simp only [malformed_seedScalar_iff hr ho, not_or, not_not] at h
  obtain ⟨hl, hn⟩ := h
  obtain ⟨seed, hp⟩ := List.length_eq_one_iff.mp hn
  have hh := eq_mkHeader_of_len_zero hr hl
  rw [ho] at hh
  obtain ⟨header, payload⟩ := p
  cases hh
  cases hp
  exact hne seed rfl

/-- SEED_SCALAR's packet carries its command (R33). -/
theorem decode_packet_seedScalar (seed : Word) :
    decode ⟨0x00000001#32, [seed]⟩ = .instr (.seedScalar seed) := by
  have hr : headerRsv 0x00000001#32 = 0#4 := by decide
  have ho : headerOp 0x00000001#32 = 1#4 := by decide
  have hl : headerLen 0x00000001#32 = 0#24 := by decide
  exact decode_seedScalar hr ho (by simp [malformed_seedScalar_iff, hr, ho, hl])

/-- A command without payload has no packet but its header alone (R33, R37). -/
theorem malformed_of_ne_bare {p : Packet} (ho : headerOp p.header = 3#4 ∨ headerOp p.header = 4#4)
    (hne : p ≠ ⟨mkHeader (headerOp p.header) 0#4 0#24, []⟩) : p.Malformed := by
  by_contra h
  have hr := rsv_eq_zero_of_not_malformed h
  simp only [malformed_bare_iff hr ho, not_or, not_not] at h
  obtain ⟨hl, hn⟩ := h
  rw [← eq_mkHeader_of_len_zero hr hl, ← List.length_eq_zero_iff.mp hn] at hne
  exact hne rfl

end Sys2Proof
end

section
/-! PROOFS. Scalar seeding and array seeding (40_core_commands.md sections 1 and 2): the words that SeedFill
writes, one iteration of each phase of ArrayMix, and the two seed commands. -/

namespace Sys2Proof.Machine

/-! ### SeedFill (R42) -/

theorem seedFill_zero (mt : Buffer) (s : Word) : (seedFill mt s)[0] = s :=
  seedFill_getElem mt s 0 (by decide)

theorem seedFill_succ (mt : Buffer) (s : Word) (i : Nat) (h : i + 1 < 624) :
    (seedFill mt s)[i + 1] =
      fInit * ((seedFill mt s)[i] ^^^ ((seedFill mt s)[i] >>> 30)) + BitVec.ofNat 32 (i + 1) := by
  rw [seedFill_getElem mt s (i + 1) h, seedFill_getElem mt s i (Nat.lt_of_succ_lt h)]
  rfl

/-- SeedFill forgets the buffer it overwrites. -/
theorem seedFill_congr (mt mt' : Buffer) (s : Word) : seedFill mt' s = seedFill mt s :=
  Vector.ext fun i hi => (seedFill_getElem mt' s i hi).trans (seedFill_getElem mt s i hi).symm

/-! ### One iteration of a walk (R45, R46) -/

/-- The state index goes round 1..623. -/
theorem writeAndAdvance_index (w : Walk) (v : Word) :
    (w.writeAndAdvance v).i.val = w.i.val % 623 + 1 := by
  by_cases h : w.i.val + 1 < 624
  · rw [writeAndAdvance_inner w v h, Nat.mod_eq_of_lt (Nat.lt_of_succ_lt_succ h)]
  · have hwrap : w.i.val = 623 := by omega
    rw [writeAndAdvance_wrap w v hwrap, hwrap]
    rfl

section AtIndex
variable {w : Walk} {k : Nat} (hk : k < 623) (h : w.i.val = k + 1)
include hk h

/-- A walk at index k + 1 writes that word, and copies it into MT[0] at the end of the buffer. -/
theorem writeAndAdvance_mt (v : Word) :
    (w.writeAndAdvance v).mt =
      if k + 1 = 623 then (w.mt.set 623 v).set 0 v else w.mt.set (k + 1) v := by
  split_ifs with hwrap
  · rw [writeAndAdvance_wrap w v (h.trans hwrap)]
  · rw [writeAndAdvance_inner w v (by omega)]
    simp only [h]

/-- What both phases read at index k + 1: that word and the word before it. -/
theorem mixed_eq (f : Word) :
    mixed f w = w.mt[k + 1] ^^^ ((w.mt[k] ^^^ (w.mt[k] >>> 30)) * f) := by
  simp only [mixed, foldTop, Fin.getElem_fin, h, Nat.add_sub_cancel]

end AtIndex

/-! ### Phase 1 (R44, R45) -/

/-- The state index after n iterations of phase 1. -/
theorem phase1_index (mt : Buffer) (key : List Word) (h : 0 < key.length) (n : Nat) :
    ((phase1Step key)^[n] (phase1Start mt key h)).walk.i.val = n % 623 + 1 := by
  induction n with
  | zero => rfl
  | succ n ih =>
    rw [Function.iterate_succ_apply', phase1Step, writeAndAdvance_index, ih, Nat.mod_add_mod]

/-- The key index after n iterations of phase 1. -/
theorem phase1_keyIndex (mt : Buffer) (key : List Word) (h : 0 < key.length) (n : Nat) :
    ((phase1Step key)^[n] (phase1Start mt key h)).j.val = n % key.length := by
  induction n with
  | zero => exact (Nat.zero_mod _).symm
  | succ n ih =>
    rw [Function.iterate_succ_apply', phase1Step, nextKeyIndex_val, ih, Nat.mod_add_mod]

/-- What one iteration of phase 1 does to the buffer. -/
theorem phase1Step_mt {key : List Word} {m : KeyWalk key.length} {k j : Nat} (hk : k < 623)
    (hj : j < key.length) (hi : m.walk.i.val = k + 1) (hmj : m.j.val = j) :
    let b := m.walk.mt
    let v := (b[k + 1] ^^^ ((b[k] ^^^ (b[k] >>> 30)) * fMix1)) + key[j] + BitVec.ofNat 32 j
    (phase1Step key m).walk.mt = if k + 1 = 623 then (b.set 623 v).set 0 v else b.set (k + 1) v := by
  intro b v
  have hv : mixed fMix1 m.walk + keyOperand key m.j = v := by
    simp only [mixed_eq hk hi, keyOperand, Fin.getElem_fin, hmj, v, b, BitVec.add_assoc]
  rw [phase1Step, hv, writeAndAdvance_mt hk hi]

/-! ### Phase 2 (R46) -/

theorem phase2Step_index (mode : Phase2Mode) (w : Walk) : (phase2Step mode w).i.val = w.i.val % 623 + 1 := by
  rw [phase2Step, overwrite_index, writeAndAdvance_index]

/-- The state index after n iterations of phase 2, from any index that phase 1 can leave. -/
theorem phase2_index (mode : Phase2Mode) (w : Walk) (h : 1 ≤ w.i.val) (n : Nat) :
    ((phase2Step mode)^[n] w).i.val = (w.i.val - 1 + n) % 623 + 1 := by
  induction n with
  | zero =>
    rw [Function.iterate_zero_apply]
    omega
  | succ n ih =>
    rw [Function.iterate_succ_apply', phase2Step_index, ih, Nat.mod_add_mod, Nat.add_assoc]

/-- What one iteration of phase 2 does to the buffer: the write and the copy of R46, before the mode's
overwrite. -/
theorem phase2Step_eq (mode : Phase2Mode) {w : Walk} {k : Nat} (hk : k < 623) (hi : w.i.val = k + 1) :
    let v := (w.mt[k + 1] ^^^ ((w.mt[k] ^^^ (w.mt[k] >>> 30)) * fMix2)) - BitVec.ofNat 32 (k + 1)
    let b := if k + 1 = 623 then (w.mt.set 623 v).set 0 v else w.mt.set (k + 1) v
    ∃ i, phase2Step mode w = overwrite mode ⟨b, i⟩ := by
  intro v b
  have hb : (w.writeAndAdvance (mixed fMix2 w - BitVec.ofNat 32 w.i.val)).mt = b := by
    rw [writeAndAdvance_mt hk hi, mixed_eq hk hi, hi]
  exact ⟨_, by rw [phase2Step, ← hb]⟩

/-! ### The forced word (R47) -/

theorem arrayMix_zero (mode : Phase2Mode) (mt : Buffer) (key : List Word) (h : 0 < key.length) :
    (arrayMix mode mt key h)[0] = forcedW0 :=
  Vector.getElem_set_self _

theorem arrayMix_other (mode : Phase2Mode) (mt : Buffer) (key : List Word) (h : 0 < key.length)
    (i : Nat) (hi : i < 624) (h0 : i ≠ 0) :
    (arrayMix mode mt key h)[i] = (phase2 mode (phase1 mt key h).walk).mt[i] :=
  Vector.getElem_set_ne _ hi h0.symm

/-- Phase 2 ends with an iteration. -/
theorem phase2_eq_step (mode : Phase2Mode) (w : Walk) :
    phase2 mode w = phase2Step mode ((phase2Step mode)^[622] w) := by
  unfold phase2
  exact Function.iterate_succ_apply' (phase2Step mode) 622 w

/-- SOURCE_COMPAT has already forced MT[0] in the last iteration of phase 2. -/
theorem phase2_sourceCompat_zero (w : Walk) : (phase2 .sourceCompat w).mt[0] = forcedW0 := by
  rw [phase2_eq_step]
  exact Vector.getElem_set_self _

theorem arrayMix_sourceCompat (mt : Buffer) (key : List Word) (h : 0 < key.length) :
    arrayMix .sourceCompat mt key h = (phase2 .sourceCompat (phase1 mt key h).walk).mt := by
  rw [arrayMix, ← phase2_sourceCompat_zero (phase1 mt key h).walk, Vector.set_getElem_self]

/-! ### The obligations -/

/-- Settles O9: every word of the seeded buffer is a word of the recurrence. -/
theorem seedFillFollowsTheRecurrence : Obligations.SeedFillFollowsTheRecurrence :=
  fun mt s => ⟨seedFill_zero mt s, seedFill_succ mt s, fun mt' => seedFill_congr mt mt' s⟩

/-- Settles O10: the command fills the buffer, and a packet with OP = 1 is either its packet or malformed. -/
theorem seedScalarFillsAndExhausts : Obligations.SeedScalarFillsAndExhausts := by
  intro s
  refine ⟨fun seed => ⟨_, exec_seedScalar seed s, ?_, seedFill_zero s.mt seed, seedFill_succ s.mt seed, rfl⟩,
    fun p ho hne => ?_⟩
  · exact performPacket_of_decode (decode_packet_seedScalar seed) s
  · rw [performPacket_of_malformed (malformed_of_ne_seedScalar ho hne) s, ho]
    rfl

/-- Settles O11: the indices after n iterations say which words the next one reads and writes. -/
theorem phase1MixesTheKeyIn : Obligations.Phase1MixesTheKeyIn := by
  intro mt key h
  refine ⟨rfl, by rw [phase1], fun n => ?_⟩
  have hi := phase1_index mt key h n
  have hj := phase1_keyIndex mt key h n
  refine ⟨hi, hj, ?_⟩
  rw [Function.iterate_succ_apply']
  exact phase1Step_mt (Nat.mod_lt n (by decide)) (Nat.mod_lt n h) hi hj

/-- Settles O12: the index after n iterations says which words the next one reads and writes. -/
theorem phase2WalksTheBuffer : Obligations.Phase2WalksTheBuffer := by
  intro mode w hw
  refine ⟨by unfold phase2; rfl, fun n => ?_⟩
  have hi := phase2_index mode w hw n
  refine ⟨hi, ?_⟩
  obtain ⟨i, hstep⟩ := phase2Step_eq mode (Nat.mod_lt _ (by decide)) hi
  rw [Function.iterate_succ_apply', hstep]
  cases mode <;> rfl

/-- Settles O13: the last write is to MT[0] alone, and SOURCE_COMPAT's phase 2 has made it before. -/
theorem arrayMixForcesTheFirstWord : Obligations.ArrayMixForcesTheFirstWord := by
  intro mode mt key h
  refine ⟨arrayMix_zero mode mt key h, arrayMix_other mode mt key h, ?_⟩
  rintro rfl
  exact arrayMix_sourceCompat mt key h

/-- Settles O14: the command's two answers, and R40's causes for a packet with OP = 2. -/
theorem seedArrayMixesOrRefusesTheEmptyKey : Obligations.SeedArrayMixesOrRefusesTheEmptyKey := by
  intro s
  refine ⟨fun key => ?_, fun p ho => ?_⟩
  · cases key with
    | nil => exact ⟨_, exec_seedArray_nil s, fun h => absurd h (Nat.lt_irrefl 0), fun _ => rfl⟩
    | cons w ws => exact ⟨_, exec_seedArray (key := w :: ws) (Nat.succ_pos _) s, fun _ => rfl, fun h => by cases h⟩
  · split_ifs with hc
    · obtain ⟨hr, hn⟩ := hc
      have hwf : ¬p.Malformed := fun hm => (malformed_seedArray_iff hr ho).mp hm hn
      exact performPacket_of_decode (decode_seedArray hr ho hwf) s
    · have hm : p.Malformed := by
        by_contra hwf
        have hr := rsv_eq_zero_of_not_malformed hwf
        exact hwf ((malformed_seedArray_iff hr ho).mpr fun hn => hc ⟨hr, hn⟩)
      rw [performPacket_of_malformed hm s, ho]
      rfl

end Sys2Proof.Machine
end

section
/-! PROOFS. The twist step, tempering, and the two commands that answer a word (40_core_commands.md sections
3 to 5). -/

namespace Sys2Proof.Machine

/-- The word emitted does not depend on how its cursor's bound was proved. -/
theorem emitWord_congr {s u : State} (he : s = u) (hs : s.mti.toNat < 624) (hu : u.mti.toNat < 624) :
    emitWord s hs = emitWord u hu := by
  subst he
  rfl

/-- A packet with the operation of a command without payload, other than the command's own, is answered
ILLEGAL_COMMAND (R37, R40). -/
theorem performPacket_of_ne_bare {p : Packet} {op : BitVec 4} (hop : op = 3#4 ∨ op = 4#4)
    (ho : headerOp p.header = op) (hne : p ≠ ⟨mkHeader op 0#4 0#24, []⟩) (s : State) :
    performPacket p s = .next (respond .illegalCommand op none s) := by
  subst ho
  exact performPacket_of_malformed (malformed_of_ne_bare hop hne) s

/-! ### The obligations -/

/-- Settles O16: TwistWord is one write of the combined word. -/
theorem twistWordRewritesOneWord : Obligations.TwistWordRewritesOneWord :=
  fun mt k => ⟨twistWord_self mt k, twistWord_other mt k⟩

/-- Settles O19: the four steps of Temper, each y named by its equation. -/
theorem temperTakesItsFourSteps : Obligations.TemperTakesItsFourSteps := by
  rintro y0 _ _ _ rfl rfl rfl
  rfl

/-- Settles O23: the word emitted is one of the state after the refill, which the cursor decides. -/
theorem nextU32AnswersTheNextTemperedWord : Obligations.NextU32AnswersTheNextTemperedWord := by
  intro s
  have hzero : (0#10).toNat < 624 := by decide
  refine ⟨⟨_, exec_nextU32 s, ?_, fun h => ?_, fun h => ?_, fun h => ?_⟩, fun p ho hne => ?_⟩
  · have hd : decode ⟨0x00000003#32, []⟩ = .instr .nextU32 := rfl
    exact performPacket_of_decode hd s
  · exact emitWord_congr (refillIfDue_ready s h) _ h
  · have hdue : 624 ≤ s.mti.toNat ∧ s.mti ≠ 625#10 := by
      rw [h]
      decide
    exact emitWord_congr (refillIfDue_exhausted s hdue.1 hdue.2) _ hzero
  · exact emitWord_congr (refillIfDue_uninitialized s h) _ hzero
  · exact performPacket_of_ne_bare (.inl rfl) ho hne s

/-- Settles O24: the status word is a view of the state, and only the response is written. -/
theorem readStatusAnswersTheStatusWord : Obligations.ReadStatusAnswersTheStatusWord := by
  intro s mode t
  have hexec : exec .readStatus s = .next t := exec_readStatus s
  have hd : decode ⟨0x00000004#32, []⟩ = .instr .readStatus := rfl
  exact ⟨hexec, (performPacket_of_decode hd s).trans hexec,
    fun p ho hne => performPacket_of_ne_bare (.inr rfl) ho hne s⟩

end Sys2Proof.Machine
end

section
/-! PROOFS. The host's derived outputs (41_host_derived_outputs.md R62 to R66): which operations on binary64
values are exact, and the value of each output. -/

namespace Sys2Proof.Machine

/-! ### Values m / 2^s with a significand of at most 53 bits are computed exactly -/

/-- A finite binary64 pattern, not negative, with the value m / 2^s. -/
structure Dyadic (x : Binary64) (m s : Nat) : Prop where
  finite : x.finiteNonneg = true
  value : x.value = m / 2 ^ s

theorem dyadic_fl {m den s : Nat} (hd : den = 2 ^ s) (hm : m < 2 ^ 53) (hs : s ≤ 1021) :
    Dyadic (fl m den) m s := by
  subst hd
  have hpos := Nat.two_pow_pos s
  have hlarge : m = 0 ∨ 2 ^ s ≤ m * 2 ^ s := m.eq_zero_or_pos.imp_right (Nat.le_mul_of_pos_left _)
  have hbound : m < 2 ^ s * 2 ^ 53 := hm.trans_le (Nat.le_mul_of_pos_left _ hpos)
  obtain ⟨hfinite, hvalue⟩ := fl_exact hpos hbound hlarge hs rfl hm
  exact ⟨hfinite, by rw [hvalue, Nat.cast_pow, Nat.cast_ofNat]⟩

theorem dyadic_ofNat {n : Nat} (h : n < 2 ^ 53) : Dyadic (Binary64.ofNat n) n 0 :=
  dyadic_fl (pow_zero 2).symm h (Nat.zero_le _)

namespace Dyadic
variable {a b x : Binary64} {m n s t : Nat}

/-- The value with its denominator as a natural number. -/
theorem value_eq_div (h : Dyadic x m s) : x.value = (m : ℚ) / (2 ^ s : Nat) := by
  rw [h.value, Nat.cast_pow, Nat.cast_ofNat]

theorem mul (ha : Dyadic a m s) (hb : Dyadic b n t) (h : m * n < 2 ^ 53) (hs : s + t ≤ 1021) :
    Dyadic (a.mul b) (m * n) (s + t) := by
  have hpos := Nat.two_pow_pos (s + t)
  have hbound : m * n < 2 ^ s * 2 ^ t * 2 ^ 53 := by
    rw [← Nat.pow_add]
    exact h.trans_le (Nat.le_mul_of_pos_left _ hpos)
  rw [mul_eq_fl (Nat.two_pow_pos s) (Nat.two_pow_pos t) ha.value_eq_div hb.value_eq_div hbound, ← Nat.pow_add]
  exact dyadic_fl rfl h hs

theorem add (ha : Dyadic a m s) (hb : Dyadic b n t) (h : m * 2 ^ t + n * 2 ^ s < 2 ^ 53) (hs : s + t ≤ 1021) :
    Dyadic (a.add b) (m * 2 ^ t + n * 2 ^ s) (s + t) := by
  have hpos := Nat.two_pow_pos (s + t)
  have hbound : m * 2 ^ t + n * 2 ^ s < 2 ^ s * 2 ^ t * 2 ^ 53 := by
    rw [← Nat.pow_add]
    exact h.trans_le (Nat.le_mul_of_pos_left _ hpos)
  rw [add_eq_fl (Nat.two_pow_pos s) (Nat.two_pow_pos t) ha.value_eq_div hb.value_eq_div hbound, ← Nat.pow_add]
  exact dyadic_fl rfl h hs

theorem value_pos (h : Dyadic x m s) (hm : 0 < m) : 0 < x.value := by
  rw [h.value]
  positivity

theorem value_lt_one (h : Dyadic x m s) (hm : m < 2 ^ s) : x.value < 1 := by
  rw [h.value, div_lt_one (by positivity)]
  exact_mod_cast hm

end Dyadic

theorem value_nonneg (x : Binary64) : 0 ≤ x.value :=
  div_nonneg (Nat.cast_nonneg _) (Nat.cast_nonneg _)

/-- A fraction below 1, however near, rounds to 1 at most. -/
theorem fl_le_one {num den k : Nat} (h : num < den) (hk : num = 0 ∨ den ≤ num * 2 ^ k) (hk' : k ≤ 1021) :
    (fl num den).finiteNonneg = true ∧ (fl num den).value ≤ 1 := by
  obtain rfl | hn := num.eq_zero_or_pos
  · rw [fl_zero, value_zero]
    exact ⟨rfl, zero_le_one⟩
  · have hd : 0 < den := hn.trans h
    obtain ⟨hfinite, hvalue, -⟩ := fl_rounded hn hd (by omega) (hk.resolve_left hn.ne') hk'
    generalize roundScale num den = s at hvalue
    have hscaled : num * 2 ^ s < den * 2 ^ s := Nat.mul_lt_mul_of_pos_right h (Nat.two_pow_pos s)
    have hm := (roundHalfEven_bounds (lo := 0) hd (Nat.zero_le _) hscaled).2
    refine ⟨hfinite, ?_⟩
    rw [hvalue, div_le_one (by positivity)]
    exact_mod_cast hm

/-! ### The outputs as functions of the words drawn -/

theorem u31_toNat (r : Word) : (u31 r).toNat = r.toNat / 2 := by
  rw [u31, BitVec.toNat_ushiftRight, Nat.shiftRight_eq_div_pow, pow_one]

/-- C1 (R63). -/
theorem fl_c1 : fl 1 4294967295 = 0x3df0000000100000#64 := by decide +kernel

theorem value_c1 : Binary64.value 0x3df0000000100000#64 = ((2 ^ 32 + 1 : Nat) : ℚ) / (2 ^ 64 : Nat) := by
  rw [value_normal _ (by decide) (by decide) (by decide)]
  norm_num

theorem value_one : Binary64.value 0x3ff0000000000000#64 = 1 := by
  rw [value_normal _ (by decide) (by decide) (by decide)]
  norm_num

/-- The draw converts exactly, so that the product with C1 is the one rounding (R63). -/
theorem real1_eq_fl (r : Word) : real1 r = fl (r.toNat * (2 ^ 32 + 1)) (2 ^ 64) := by
  have hr := (dyadic_ofNat (n := r.toNat) (by omega)).value_eq_div
  rw [real1, fl_c1, mul_eq_fl (by decide) (by decide) hr value_c1 (by omega), pow_zero, Nat.one_mul]

theorem real1_le_one (r : Word) : (real1 r).finiteNonneg = true ∧ (real1 r).value ≤ 1 := by
  rw [real1_eq_fl]
  exact fl_le_one (k := 32) (by omega) (by omega) (by decide)

/-- C2 (R64). -/
theorem dyadic_c2 : Dyadic (fl 1 4294967296) 1 32 := dyadic_fl (by decide) (by decide) (by decide)

theorem real2_dyadic (r : Word) : Dyadic (real2 r) r.toNat 32 := by
  have hr := dyadic_ofNat (n := r.toNat) (by omega)
  simpa [real2] using hr.mul dyadic_c2 (by omega) (by decide)

theorem real3_dyadic (r : Word) : Dyadic (real3 r) (r.toNat * 2 + 1) 33 := by
  have hhalf : Dyadic (fl 1 2) 1 1 := dyadic_fl (by decide) (by decide) (by decide)
  have hr := dyadic_ofNat (n := r.toNat) (by omega)
  have hsum := hr.add hhalf (by omega) (by decide)
  simpa [real3] using hsum.mul dyadic_c2 (by omega) (by decide)

theorem res53_dyadic (r1 r2 : Word) :
    Dyadic (res53 r1 r2) (r1.toNat / 32 * 2 ^ 26 + r2.toNat / 64) 53 := by
  have hc : Dyadic (fl 1 9007199254740992) 1 53 := dyadic_fl (by decide) (by decide) (by decide)
  have hshift : Dyadic (Binary64.ofNat 67108864) (2 ^ 26) 0 := dyadic_ofNat (by decide)
  have ea : (r1 >>> 5).toNat = r1.toNat / 32 := Nat.shiftRight_eq_div_pow ..
  have eb : (r2 >>> 6).toNat = r2.toNat / 64 := Nat.shiftRight_eq_div_pow ..
  have ha := dyadic_ofNat (n := r1.toNat / 32) (by omega)
  have hb := dyadic_ofNat (n := r2.toNat / 64) (by omega)
  have hhigh := ha.mul hshift (by omega) (by decide)
  have hsum := hhigh.add hb (by omega) (by decide)
  rw [res53, ea, eb]
  simpa using hsum.mul hc (by omega) (by decide)

/-! ### The outputs as commands: each consumes its draws -/

section Draw
variable {s t t' : State} {r r' : Word} (h : draw s = some (r, t))
include h

theorem nextU31_of_draw : nextU31 s = some (u31 r, t) := by rw [nextU31, h, Option.map_some]

theorem nextReal1_of_draw : nextReal1 s = some (real1 r, t) := by rw [nextReal1, h, Option.map_some]

theorem nextReal2_of_draw : nextReal2 s = some (real2 r, t) := by rw [nextReal2, h, Option.map_some]

theorem nextReal3_of_draw : nextReal3 s = some (real3 r, t) := by rw [nextReal3, h, Option.map_some]

theorem nextRes53_of_draws (h' : draw t = some (r', t')) : nextRes53 s = some (res53 r r', t') := by
  rw [nextRes53, h, Option.bind_some, h', Option.map_some]

end Draw

/-! ### The obligations -/

/-- Settles O46: a right shift by one halves the word. -/
theorem nextU31HalvesTheDraw : Obligations.NextU31HalvesTheDraw := by
  intro s t r h
  refine ⟨_, nextU31_of_draw h, u31_toNat r, ?_⟩
  rw [u31_toNat]
  omega

/-- Settles O48: `real1_eq_fl` leaves one rounding, of a fraction below 1; the corners are evaluated. -/
theorem nextReal1RoundsTheProduct : Obligations.NextReal1RoundsTheProduct := by
  refine ⟨fun s t r h => ?_, real1_eq_fl, fl_c1, ?_, ?_, ?_, ?_⟩
  · obtain ⟨hfinite, hle⟩ := real1_le_one r
    exact ⟨_, nextReal1_of_draw h, real1_eq_fl r, hfinite, value_nonneg _, hle⟩
  · rw [value_c1]
    norm_num
  · rw [real1_eq_fl]
    exact fl_zero _
  · have hone : real1 0xffffffff#32 = 0x3ff0000000000000#64 := by decide +kernel
    rw [hone, value_one]
  · decide +kernel

/-- Settles O49: the draw has 32 bits and C2 is a power of two. -/
theorem nextReal2IsExact : Obligations.NextReal2IsExact := by
  intro s t r h
  have hx := real2_dyadic r
  exact ⟨_, nextReal2_of_draw h, hx.finite, hx.value, value_nonneg _, hx.value_lt_one r.isLt⟩

/-- Settles O50: r + 0.5 is (2 r + 1) / 2, which has 33 bits. -/
theorem nextReal3IsExact : Obligations.NextReal3IsExact := by
  intro s t r h
  have hx := real3_dyadic r
  refine ⟨_, nextReal3_of_draw h, hx.finite, ?_, hx.value_pos (Nat.succ_pos _), hx.value_lt_one (by omega)⟩
  rw [hx.value]
  push_cast
  ring

/-- Settles O51: a * 2^26 + b has 53 bits, so neither the product, the sum nor the scaling rounds. -/
theorem nextRes53IsExact : Obligations.NextRes53IsExact := by
  intro s t t' r1 r2 h h'
  have hx := res53_dyadic r1 r2
  refine ⟨_, nextRes53_of_draws h h', hx.finite, ?_, value_nonneg _, hx.value_lt_one (by omega)⟩
  rw [hx.value]
  push_cast
  ring

end Sys2Proof.Machine
end

section
/-! PROOFS. Errors (60_exceptions.md R70): a failed packet is answered without data, and the packet after it is
performed as if the failed one had never been. -/

namespace Sys2Proof.Machine

/-- A response that reports an error carries no data word, whether the decoder or SEED_ARRAY gives it (R70). -/
theorem performPacket_error_data {p : Packet} {s t : State} {r : Response}
    (h : performPacket p s = .next t) (hr : t.response = some r) (he : r.res ≠ .ok) : r.data = none := by
  cases hd : decode p with
  | illegal c =>
    rw [performPacket, hd] at h
    cases h
    cases hr
    rfl
  | instr i =>
    rw [performPacket_of_decode hd] at h
    have hi : i = .seedArray [] := by_contra fun hi => he ((res_of_exec h hr).trans (if_neg hi))
    subst hi
    cases (exec_seedArray_nil s).symm.trans h
    cases hr
    rfl

/-- Offering a packet forgets a response that has been taken and the words received before it (R28). -/
theorem offerPacket_takeResponse (q : Packet) (s : State) (ws : List Word) (r : Option Response) :
    offerPacket q (takeResponse { s with rx := ws, response := r }) = offerPacket q s :=
  rfl

/-- Settles O6: the step on an offered packet performs it, an error changes the response alone, and the next
offer no longer sees that response. -/
theorem errorsLeaveTheStateUnchanged : Obligations.ErrorsLeaveTheStateUnchanged := by
  intro p s
  obtain ⟨mt, mti, r, h⟩ := performPacket_cases p { s with rx := [], response := none }
  refine ⟨_, r, (step_offerPacket p s).trans h, rfl, fun he => ?_⟩
  have hframe := performPacket_error_frame h rfl he
  refine ⟨performPacket_error_data h rfl he, hframe, fun q => ?_⟩
  rw [hframe]
  exact congrArg step (offerPacket_takeResponse q s [] (some r))

end Sys2Proof.Machine
end

section
/-! PROOFS. How a host holds the block (70_reset_and_hazards.md R86): a property that every step keeps holds along
every run, and the two holds are such properties. -/

namespace Sys2Proof.Machine

/-- What every step keeps, and no step from it faults or is refused, holds after any number of steps. -/
theorem runSteps_keeps {P : State → Prop} (hstep : ∀ s, P s → ∃ t, step s = .next t ∧ P t) (n : Nat) {s : State}
    (h : P s) : ∃ t, runSteps n s = .next t ∧ P t := by
  induction n generalizing s with
  | zero => exact ⟨s, runSteps_zero s, h⟩
  | succ n ih =>
    obtain ⟨u, hu, hPu⟩ := hstep s h
    rw [runSteps_succ n s u hu]
    exact ih hPu

section
variable {s : State} {ms : List HostMove}

theorem hostMove_nil (h : s.moves = []) : hostMove s = s := by
  rw [hostMove, h]

theorem hostMove_send {ws : List ChannelWord} (h : s.moves = .send ws :: ms) :
    hostMove s = { s with moves := ms, channel := s.channel ++ ws } := by
  rw [hostMove, h]

theorem hostMove_take (h : s.moves = .take :: ms) : hostMove s = takeResponse { s with moves := ms } := by
  rw [hostMove, h]

/-- While a response waits or no word is on the channel, it is the host's turn (20_memory.md R28). -/
theorem step_eq_hostMove (h : s.response ≠ none ∨ s.channel = []) : step s = .next (hostMove s) :=
  if_neg fun ⟨hr, hc⟩ => h.elim (· hr) hc

/-- The idle block receives the words of an unfinished packet and waits for more (R86). -/
theorem step_unmarked (hr : s.response = none) (hc : s.channel ≠ []) (hl : ∀ c ∈ s.channel, c.last = false) :
    step s = .next { s with rx := s.rx ++ s.channel.map (·.word), channel := [] } := by
  rw [step, stepBlock, if_pos ⟨hr, hc⟩, receive, splitAtLast_unmarked hl]

end

/-- `t` is `s` held by its waiting response: the host's remaining moves neither take it nor reset the block, and
all that the block itself keeps is as in `s` (R86). -/
structure HeldByResponse (s t : State) : Prop where
  waiting : t.response ≠ none
  moves : ∀ m ∈ t.moves, m ≠ .take ∧ m ≠ .reset
  mt : t.mt = s.mt
  mti : t.mti = s.mti
  rx : t.rx = s.rx
  response : t.response = s.response

/-- The block only waits, and a host that neither takes nor resets can only send. -/
theorem step_keeps_heldByResponse {s t : State} (h : HeldByResponse s t) :
    ∃ u, step t = .next u ∧ HeldByResponse s u := by
  refine ⟨_, step_eq_hostMove (.inl h.waiting), ?_⟩
  have hmoves := h.moves
  cases hm : t.moves with
  | nil => rwa [hostMove_nil hm]
  | cons m ms =>
    rw [hm, List.forall_mem_cons] at hmoves
    obtain ⟨⟨htake, hreset⟩, hms⟩ := hmoves
    cases m with
    | send ws =>
      rw [hostMove_send hm]
      exact { h with moves := hms }
    | take => exact absurd rfl htake
    | reset => exact absurd rfl hreset

/-- `t` is `s` held in the middle of a packet: no word on the channel or still to be sent ends it, the host's
remaining moves do not reset the block, and the block has performed nothing since `s` (R86). -/
structure HeldByPacket (s t : State) : Prop where
  idle : t.response = none
  unmarked : ∀ c ∈ t.channel, c.last = false
  moves : ∀ m ∈ t.moves, m ≠ .reset ∧ ∀ ws, m = .send ws → ∀ c ∈ ws, c.last = false
  mt : t.mt = s.mt
  mti : t.mti = s.mti
  rx : s.rx <+: t.rx

/-- A host that neither ends the packet nor resets leaves it unfinished: it sends more unmarked words, or takes a
response where none waits. -/
theorem hostMove_keeps_heldByPacket {s t : State} (h : HeldByPacket s t) : HeldByPacket s (hostMove t) := by
  have hmoves := h.moves
  cases hm : t.moves with
  | nil => rwa [hostMove_nil hm]
  | cons m ms =>
    rw [hm, List.forall_mem_cons] at hmoves
    obtain ⟨⟨hreset, hsend⟩, hms⟩ := hmoves
    cases m with
    | send ws =>
      rw [hostMove_send hm]
      exact { h with
        moves := hms
        unmarked := fun c hc => (List.mem_append.mp hc).elim (h.unmarked c) (hsend ws rfl c) }
    | take =>
      rw [hostMove_take hm]
      exact { h with moves := hms, idle := rfl }
    | reset => exact absurd rfl hreset

/-- The block receives the unmarked words on its channel; when there are none, the host moves. -/
theorem step_keeps_heldByPacket {s t : State} (h : HeldByPacket s t) :
    ∃ u, step t = .next u ∧ HeldByPacket s u := by
  by_cases hc : t.channel = []
  · exact ⟨_, step_eq_hostMove (.inr hc), hostMove_keeps_heldByPacket h⟩
  · exact ⟨_, step_unmarked h.idle hc h.unmarked,
      { h with unmarked := List.forall_mem_nil _, rx := h.rx.trans (List.prefix_append _ _) }⟩

/-- Settles O42: each of the two holds is kept by every step, so it holds along every run. -/
theorem hostCanHoldTheBlock : Obligations.HostCanHoldTheBlock := by
  constructor
  · intro s n hr hm
    obtain ⟨t, ht, h⟩ := runSteps_keeps (fun _ => step_keeps_heldByResponse) n
      (⟨hr, hm, rfl, rfl, rfl, rfl⟩ : HeldByResponse s s)
    exact ⟨t, ht, h.mt, h.mti, h.rx, h.response⟩
  · intro s n hr hc hm
    obtain ⟨t, ht, h⟩ := runSteps_keeps (fun _ => step_keeps_heldByPacket) n
      (⟨hr, hc, hm, rfl, rfl, List.prefix_rfl⟩ : HeldByPacket s s)
    exact ⟨t, ht, h.mt, h.mti, h.idle, h.rx⟩

end Sys2Proof.Machine
end

section
/-! PROOFS. The packets of the commands (30_encoding.md): encoding and decoding are inverse, the fields of a
response header, and what the assembler makes of its lines. -/

namespace Sys2Proof

/-! ### Encoding and decoding are inverse (R32, R36, R37) -/

/-- LEN counts the words of a well-formed key. -/
theorem toNat_len_of_wellFormed {key : List Word} (h : (Instr.seedArray key).wellFormed = true) :
    (BitVec.ofNat 24 key.length).toNat = key.length := by
  rw [BitVec.toNat_ofNat, Nat.mod_eq_of_lt (of_decide_eq_true h)]

theorem decode_encode {i : Instr} (h : i.wellFormed = true) : decode (encode i) = .instr i := by
  cases i with
  | seedScalar s => simp [decode, encode, decodeSeedScalar]
  | seedArray key => simp [decode, encode, toNat_len_of_wellFormed h]
  | nextU32 => rfl
  | readStatus => rfl

/-- The packet of a command without LEN, from its header's fields. -/
theorem packet_eq_of_len_zero {p : Packet} {op : BitVec 4} (hr : headerRsv p.header = 0#4)
    (ho : headerOp p.header = op) (hl : headerLen p.header = 0#24) :
    p = ⟨mkHeader op 0#4 0#24, p.payload⟩ := by
  subst ho
  rw [← eq_mkHeader_of_len_zero hr (congrArg BitVec.toNat hl)]

/-- A packet that passes R37's checks is determined by its operation and its payload. -/
theorem eq_encode_of_decode {p : Packet} {i : Instr} (h : decode p = .instr i) :
    i.wellFormed = true ∧ p = encode i := by
  have hcases := h
  simp only [decode, decodeSeedScalar_eq, decodeBare_eq] at hcases
  split_ifs at hcases with hr h1 hl hn h2 hn h3 hl hn h4 hl hn <;> cases hcases
  · obtain ⟨s, hs⟩ := List.length_eq_one_iff.mp hn
    have hp := packet_eq_of_len_zero (not_not.mp hr) h1 (not_not.mp hl)
    rw [hs] at hp ⊢
    exact ⟨rfl, hp⟩
  · obtain ⟨hp, hlen⟩ := eq_of_decode_seedArray h
    refine ⟨decide_eq_true (hlen ▸ (headerLen p.header).isLt), ?_⟩
    rw [encode, ← hlen, BitVec.ofNat_toNat, BitVec.setWidth_eq]
    exact hp
  · have hp := packet_eq_of_len_zero (not_not.mp hr) h3 (not_not.mp hl)
    rw [List.length_eq_zero_iff.mp hn] at hp
    exact ⟨rfl, hp⟩
  · have hp := packet_eq_of_len_zero (not_not.mp hr) h4 (not_not.mp hl)
    rw [List.length_eq_zero_iff.mp hn] at hp
    exact ⟨rfl, hp⟩

/-- Settles O2: the fields of the header that `encode` builds are those `decode` checks. -/
theorem decodeOfEncodeGivesTheCommand : Obligations.DecodeOfEncodeGivesTheCommand :=
  fun _ => decode_encode

/-- Settles O3: R37's checks leave no field of the header free. -/
theorem decodedPacketIsTheEncoding : Obligations.DecodedPacketIsTheEncoding := by
  intro p i h
  obtain ⟨hwf, hp⟩ := eq_encode_of_decode h
  exact ⟨hwf, hp.symm⟩

/-- Settles O1: the words of R36 are the packets that the encoder writes. -/
theorem specWordsDecodeToTheirCommands : Obligations.SpecWordsDecodeToTheirCommands := by
  refine ⟨fun s => decode_packet_seedScalar s, ?_, ?_, ?_, ?_⟩
  · exact decode_encode (i := .seedArray [0x123, 0x234, 0x345, 0x456]) (by decide)
  · exact decode_encode (i := .seedArray []) (by decide)
  · exact decode_encode (i := .nextU32) rfl
  · exact decode_encode (i := .readStatus) rfl

end Sys2Proof

namespace Sys2Proof.Machine

/-! ### The response header (R34, R35) -/

/-- RES in the two low bits, OP_ECHO from bit 4 on. -/
theorem getLsbD_header (r : Response) (i : Nat) :
    r.header.getLsbD i = ((decide (4 ≤ i) && r.opEcho.getLsbD (i - 4)) || r.res.code.getLsbD i) := by
  by_cases h : i < 8
  · simp [Response.header, show i < 32 by omega, ← decide_not]
  · simp [Response.header, BitVec.getLsbD_of_ge r.opEcho (i - 4) (by omega),
      BitVec.getLsbD_of_ge r.res.code i (by omega)]

/-- A field of the response header outside RES and OP_ECHO reads 0. -/
theorem extractLsb'_header_eq_zero (r : Response) {start len : Nat} (h2 : 2 ≤ start)
    (h : start + len ≤ 4 ∨ 8 ≤ start) : r.header.extractLsb' start len = 0#len := by
  ext i hi
  rw [BitVec.getElem_extractLsb', getLsbD_header, BitVec.getLsbD_of_ge r.res.code _ (by omega)]
  obtain hlow | hhigh := h
  · simp [show ¬4 ≤ start + i by omega]
  · simp [BitVec.getLsbD_of_ge r.opEcho (start + i - 4) (by omega)]

theorem extractLsb'_header_res (r : Response) : r.header.extractLsb' 0 2 = r.res.code := by
  ext i hi
  simp [getLsbD_header, show ¬4 ≤ i by omega, BitVec.getLsbD_eq_getElem hi]

theorem extractLsb'_header_opEcho (r : Response) : r.header.extractLsb' 4 4 = r.opEcho := by
  ext i hi
  simp [getLsbD_header, BitVec.getLsbD_of_ge r.res.code (4 + i) (by omega), BitVec.getLsbD_eq_getElem hi]

/-- Settles O7: the fields are read off the header's bits. -/
theorem responseHeaderHasItsFields : Obligations.ResponseHeaderHasItsFields := by
  intro r
  refine ⟨extractLsb'_header_res r, extractLsb'_header_eq_zero r (by decide) (by decide),
    extractLsb'_header_opEcho r, extractLsb'_header_eq_zero r (by decide) (by decide), ?_⟩
  cases r.res <;> rfl

/-! ### The assembler (R41) -/

theorem asmWord_of_lt {n : Nat} (h : n < 2 ^ 32) : asmWord n = some (BitVec.ofNat 32 n) := if_pos h

theorem asmWord_of_ge {n : Nat} (h : 2 ^ 32 ≤ n) : asmWord n = none := if_neg (Nat.not_lt.mpr h)

theorem asmWords_of_lt {ns : List Nat} (h : ∀ n ∈ ns, n < 2 ^ 32) :
    asmWords ns = some (ns.map (BitVec.ofNat 32)) := by
  induction ns with
  | nil => rfl
  | cons n ns ih =>
    obtain ⟨hn, hns⟩ := List.forall_mem_cons.mp h
    simp [asmWords, asmWord_of_lt hn, ih hns]

theorem asmWords_of_ge {ns : List Nat} (h : ∃ n ∈ ns, 2 ^ 32 ≤ n) : asmWords ns = none := by
  induction ns with
  | nil => simp at h
  | cons n ns ih =>
    obtain hn | hns := (List.exists_mem_cons_iff ..).mp h
    · simp [asmWords, asmWord_of_ge hn]
    · simp [asmWords, ih hns]

/-- The packet that a line assembles to, when it is a command's, decodes to that command. -/
theorem decodes_of_assemble {l : AsmLine} {i : Instr} (hl : assemble l = some [encode i])
    (h : i.wellFormed = true) : ∃ p, assemble l = some [p] ∧ decode p = .instr i :=
  ⟨_, hl, decode_encode h⟩

/-- A `.packet` line is refused for its header or for a payload word (R41). -/
theorem assemble_packet_of_ge {h : Nat} {ps : List Nat} (hn : ∃ n ∈ h :: ps, 2 ^ 32 ≤ n) :
    assemble (.packet h ps) = none := by
  obtain hh | hps := (List.exists_mem_cons_iff ..).mp hn
  · simp [assemble, asmWord_of_ge hh]
  · simp [assemble, asmWords_of_ge hps]

/-- Settles O8: a line of a command assembles to what `encode` gives, which decodes to the command. -/
theorem assembledLinesDecodeToTheirCommands : Obligations.AssembledLinesDecodeToTheirCommands := by
  refine ⟨fun n hn => decodes_of_assemble ?_ rfl, fun n hn => ?_, fun ns hlen hns => decodes_of_assemble ?_ ?_,
    fun ns h => ?_, decodes_of_assemble rfl rfl, decodes_of_assemble rfl rfl, fun l hl => ?_,
    ⟨_, rfl, decode_encode rfl⟩, fun h ps hn => ?_, fun h ps => assemble_packet_of_ge⟩
  · simp [assemble, asmWord_of_lt hn]
  · simp [assemble, asmWord_of_ge hn]
  · rw [assemble, if_pos hlen, asmWords_of_lt hns, Option.map_some]
  · simpa [Instr.wellFormed] using hlen
  · obtain hlen | hns := h
    · exact if_neg (Nat.not_lt.mpr hlen)
    · simp [assemble, asmWords_of_ge hns]
  · refine decodes_of_assemble ?_ rfl
    simp only [List.mem_cons, List.not_mem_nil, or_false] at hl
    obtain rfl | rfl | rfl | rfl := hl <;> rfl
  · obtain ⟨hh, hps⟩ := List.forall_mem_cons.mp hn
    simp [assemble, asmWord_of_lt hh, asmWords_of_lt hps]

end Sys2Proof.Machine
end

section
/-! PROOFS. What a command answers, on what its answer depends, and where it leaves the cursor (10_state.md
sections 1, 2, 5 and 7; 20_memory.md section 3; 40_core_commands.md section 6). -/

namespace Sys2Proof.Machine

/-! ### The response of a command (R34, R35) -/

/-- What performing a command leaves, command by command. -/
theorem exec_next_cases {i : Instr} {s t : State} (h : exec i s = .next t) :
    (∃ seed, i = .seedScalar seed ∧
        t = respond .ok 0x1#4 none { s with mt := seedFill s.mt seed, mti := 624#10 }) ∨
      (∃ key hk, i = .seedArray key ∧
        t = respond .ok 0x2#4 none { s with mt := arrayMix s.cfg.seedPhase2Mode s.mt key hk, mti := 624#10 }) ∨
      (i = .seedArray [] ∧ t = respond .invalidArgument 0x2#4 none s) ∨
      (i = .nextU32 ∧ t = emitWord (refillIfDue s) (refillIfDue_mti_lt s)) ∨
      (i = .readStatus ∧ t = respond .ok 0x4#4 (some (statusWord s)) s) := by
  cases i with
  | seedScalar seed =>
    cases (exec_seedScalar seed s).symm.trans h
    exact .inl ⟨seed, rfl, rfl⟩
  | seedArray key =>
    cases key with
    | nil =>
      cases (exec_seedArray_nil s).symm.trans h
      exact .inr (.inr (.inl ⟨rfl, rfl⟩))
    | cons w ws =>
      have hk : 0 < (w :: ws).length := Nat.succ_pos _
      cases (exec_seedArray hk s).symm.trans h
      exact .inr (.inl ⟨w :: ws, hk, rfl, rfl⟩)
  | nextU32 =>
    cases (exec_nextU32 s).symm.trans h
    exact .inr (.inr (.inr (.inl ⟨rfl, rfl⟩)))
  | readStatus =>
    cases (exec_readStatus s).symm.trans h
    exact .inr (.inr (.inr (.inr ⟨rfl, rfl⟩)))

/-- Every command echoes its operation, and has a data word exactly if it answers OK and is NEXT_U32 or
READ_STATUS. -/
theorem opEcho_and_legal_of_exec {i : Instr} {s t : State} {r : Response} (h : exec i s = .next t)
    (hr : t.response = some r) : r.opEcho = i.opcode ∧ r.legal = true := by
  obtain ⟨_, rfl, rfl⟩ | ⟨_, _, rfl, rfl⟩ | ⟨rfl, rfl⟩ | ⟨rfl, rfl⟩ | ⟨rfl, rfl⟩ := exec_next_cases h <;>
  · cases hr
    exact ⟨rfl, rfl⟩

/-- Whatever the packet, the response is one the block can give. -/
theorem legal_of_performPacket {p : Packet} {s t : State} {r : Response} (h : performPacket p s = .next t)
    (hr : t.response = some r) : r.legal = true := by
  cases hd : decode p with
  | instr i =>
    rw [performPacket_of_decode hd] at h
    exact (opEcho_and_legal_of_exec h hr).2
  | illegal c =>
    rw [performPacket, hd] at h
    cases h
    cases hr
    rfl

/-! ### The cursor that a command leaves (R19) -/

/-- A command leaves the cursor alone or in [1, 624]; READ_STATUS and the refused empty key leave it alone. -/
theorem mti_of_exec {i : Instr} {s t : State} (h : exec i s = .next t) :
    (t.mti = s.mti ∧ (i = .readStatus ∨ i = .seedArray [])) ∨ (1 ≤ t.mti.toNat ∧ t.mti.toNat ≤ 624) := by
  have hseed : 1 ≤ (624#10).toNat ∧ (624#10).toNat ≤ 624 := by decide
  obtain ⟨_, rfl, rfl⟩ | ⟨_, _, rfl, rfl⟩ | ⟨rfl, rfl⟩ | ⟨rfl, _⟩ | ⟨rfl, rfl⟩ := exec_next_cases h
  · exact .inr hseed
  · exact .inr hseed
  · exact .inl ⟨rfl, .inr rfl⟩
  · rw [mti_of_exec_nextU32 h]
    split_ifs with hready
    · rw [BitVec.toNat_add, BitVec.toNat_ofNat]
      exact .inr (by omega)
    · exact .inr (by decide)
  · exact .inl ⟨rfl, .inl rfl⟩

theorem mti_of_performPacket {p : Packet} {s t : State} (h : performPacket p s = .next t) :
    t.mti = s.mti ∨ t.mti.toNat ≤ 624 := by
  cases hd : decode p with
  | instr i =>
    rw [performPacket_of_decode hd] at h
    exact (mti_of_exec h).imp And.left And.right
  | illegal c =>
    rw [performPacket, hd] at h
    cases h
    exact .inl rfl

/-! ### On what a command's answer depends -/

/-- The command gives the same response in both states and leaves the same buffer and cursor in both. -/
def SameAnswer (i : Instr) (s s' : State) : Prop :=
  ∃ mt mti r, exec i s = .next { s with mt := mt, mti := mti, response := some r } ∧
    exec i s' = .next { s' with mt := mt, mti := mti, response := some r }

/-- The commands that do not look at the build: NEXT_U32 and SEED_SCALAR (40_core_commands.md R57). -/
def IgnoresBuild (i : Instr) : Prop := i = .nextU32 ∨ ∃ x, i = .seedScalar x

/-- Array seeding forgets the buffer it overwrites: phase 1 starts from SeedFill (R44). -/
theorem arrayMix_congr (mode : Phase2Mode) (mt mt' : Buffer) (key : List Word) (h : 0 < key.length) :
    arrayMix mode mt' key h = arrayMix mode mt key h := by
  have hstart : phase1Start mt' key h = phase1Start mt key h := by
    rw [phase1Start, seedFill_congr mt mt', phase1Start]
  have hphase1 : phase1 mt' key h = phase1 mt key h := by
    unfold phase1
    rw [hstart]
  rw [arrayMix, hphase1, arrayMix]

section
variable {s s' : State}

/-- SEED_SCALAR looks at its seed alone. -/
theorem sameAnswer_seedScalar (seed : Word) (s s' : State) : SameAnswer (.seedScalar seed) s s' :=
  ⟨_, _, _, exec_seedScalar seed s, by rw [exec_seedScalar, seedFill_congr s.mt s'.mt]; rfl⟩

/-- SEED_ARRAY with a key looks at the key and the build. -/
theorem sameAnswer_seedArray {key : List Word} (h : 0 < key.length) (hcfg : s'.cfg = s.cfg) :
    SameAnswer (.seedArray key) s s' :=
  ⟨_, _, _, exec_seedArray h s, by rw [exec_seedArray h, hcfg, arrayMix_congr _ s.mt s'.mt]; rfl⟩

/-- NEXT_U32, from the buffer and the cursor that the refill leaves (R54). -/
theorem exec_nextU32_of_refill {mt : Buffer} {mti : BitVec 10}
    (h : refillIfDue s = { s with mt := mt, mti := mti }) (hlt : mti.toNat < 624) :
    exec .nextU32 s =
      .next { s with
        mt := mt
        mti := mti + 1#10
        response := some ⟨.ok, 3#4, some (temper mt[mti.toNat])⟩ } := by
  rw [exec_nextU32, emitWord_congr h _ hlt]
  rfl

/-- NEXT_U32 looks at the buffer and the cursor that the refill leaves. -/
theorem sameAnswer_nextU32 (hmt : (refillIfDue s').mt = (refillIfDue s).mt)
    (hmti : (refillIfDue s').mti = (refillIfDue s).mti) : SameAnswer .nextU32 s s' := by
  have h : refillIfDue s' = { s' with mt := (refillIfDue s).mt, mti := (refillIfDue s).mti } := by
    rw [← hmt, ← hmti]
    exact refillIfDue_frame s'
  have hlt := refillIfDue_mti_lt s
  exact ⟨_, _, _, exec_nextU32_of_refill (refillIfDue_frame s) hlt, exec_nextU32_of_refill h hlt⟩

/-- The refill looks at the buffer and the cursor. -/
theorem sameAnswer_nextU32_of_eq (hmt : s'.mt = s.mt) (hmti : s'.mti = s.mti) : SameAnswer .nextU32 s s' := by
  have hrefill : (refillIfDue s').mt = (refillIfDue s).mt := by
    simp only [refillIfDue, hmti]
    split_ifs <;> simp [hmt]
  exact sameAnswer_nextU32 hrefill (by rw [refillIfDue_mti, refillIfDue_mti, hmti])

/-- From the uninitialized state NEXT_U32 does not look at the buffer: it seeds it first (R53). -/
theorem sameAnswer_nextU32_uninitialized (h : s.mti = 625#10) (h' : s'.mti = 625#10) :
    SameAnswer .nextU32 s s' := by
  have hs := refillIfDue_uninitialized s h
  have hs' := refillIfDue_uninitialized s' h'
  rw [seedFill_congr s.mt] at hs'
  exact sameAnswer_nextU32 (by rw [hs, hs']) (by rw [hs, hs'])

/-- The status word shows the build and the cursor (R15). -/
theorem statusWord_congr (hcfg : s'.cfg = s.cfg) (hmti : s'.mti = s.mti) : statusWord s' = statusWord s := by
  rw [statusWord, hcfg, hmti, statusWord]

/-- READ_STATUS looks at the build and the cursor, and leaves the buffer and the cursor as they were. -/
theorem sameAnswer_readStatus (hcfg : s'.cfg = s.cfg) (hmt : s'.mt = s.mt) (hmti : s'.mti = s.mti) :
    SameAnswer .readStatus s s' := by
  refine ⟨_, _, _, exec_readStatus s, ?_⟩
  rw [exec_readStatus, statusWord_congr hcfg hmti, ← hmt, ← hmti]
  rfl

/-- Every answer depends on the buffer, the cursor and the build alone, and that of NEXT_U32 and SEED_SCALAR
on the buffer and the cursor alone. -/
theorem sameAnswer_of_eq {i : Instr} (hcfg : IgnoresBuild i ∨ s'.cfg = s.cfg) (hmt : s'.mt = s.mt)
    (hmti : s'.mti = s.mti) : SameAnswer i s s' := by
  obtain (rfl | ⟨x, rfl⟩) | hcfg := hcfg
  · exact sameAnswer_nextU32_of_eq hmt hmti
  · exact sameAnswer_seedScalar x s s'
  cases i with
  | seedScalar x => exact sameAnswer_seedScalar x s s'
  | seedArray key =>
    cases key with
    | nil => exact ⟨_, _, _, exec_seedArray_nil s, by rw [exec_seedArray_nil, ← hmt, ← hmti]; rfl⟩
    | cons w ws => exact sameAnswer_seedArray (Nat.succ_pos _) hcfg
  | nextU32 => exact sameAnswer_nextU32_of_eq hmt hmti
  | readStatus => exact sameAnswer_readStatus hcfg hmt hmti

end

/-! ### The obligations -/

/-- Settles O26: `exec_cases` gives the frame; the response is the command's own. -/
theorem commandsTouchBufferCursorAndResponseOnly : Obligations.CommandsTouchBufferCursorAndResponseOnly := by
  intro i s
  obtain ⟨mt, mti, r, h⟩ := exec_cases i s
  exact ⟨_, r, h, rfl, opEcho_and_legal_of_exec h rfl⟩

/-- Settles O27: the answer does not depend on the response, and the command overwrites it. -/
theorem noCommandReadsAnEarlierResult : Obligations.NoCommandReadsAnEarlierResult := by
  intro i s r
  obtain ⟨mt, mti, r', h, h'⟩ :=
    sameAnswer_of_eq (s := s) (s' := { s with response := r }) (i := i) (.inr rfl) rfl rfl
  exact h'.trans h.symm

/-- A command with the same answer in the state it leaves changes nothing more. -/
theorem exec_again {i : Instr} {s t : State} (h : exec i s = .next t) (hsame : SameAnswer i s t) :
    exec i t = .next t := by
  obtain ⟨mt, mti, r, hs, ht⟩ := hsame
  cases hs.symm.trans h
  exact ht

/-- Settles O29: a seed forgets the state it seeds, and an answer of READ_STATUS or to the empty key leaves the
buffer and the cursor as they were. -/
theorem onlyNextU32IsADestructiveRead : Obligations.OnlyNextU32IsADestructiveRead := by
  refine ⟨fun i s hi => ?_, fun s t h => ?_⟩
  · cases i with
    | seedScalar seed =>
      have h := exec_seedScalar seed s
      exact ⟨_, h, exec_again h (sameAnswer_seedScalar seed s _)⟩
    | seedArray key =>
      cases key with
      | nil => exact ⟨_, exec_seedArray_nil s, rfl⟩
      | cons w ws =>
        have hkey : 0 < (w :: ws).length := Nat.succ_pos _
        have h := exec_seedArray hkey s
        exact ⟨_, h, exec_again h (sameAnswer_seedArray hkey rfl)⟩
    | nextU32 => exact absurd rfl hi
    | readStatus => exact ⟨_, exec_readStatus s, rfl⟩
  · rw [mti_of_exec_nextU32 h]
    split_ifs with hready
    · bv_omega
    · rintro hone
      exact hready (hone ▸ by decide)

end Sys2Proof.Machine
end

section
/-! PROOFS. The step (20_memory.md section 5; 70_reset_and_hazards.md): what it does in each case, what every step
keeps, and what no run can show. -/

namespace Sys2Proof.Machine

/-! ### The cases of a step -/

section
variable {s : State}

theorem hostMove_reset {ms : List HostMove} (h : s.moves = .reset :: ms) :
    hostMove s = resetInput { s with moves := ms } := by
  rw [hostMove, h]

/-- The idle block accepts a whole packet and performs it (20_memory.md R28). -/
theorem step_complete {ws ps : List Word} {rest : List ChannelWord} {w : Word} (hr : s.response = none)
    (hs : splitAtLast s.channel = some (ws, rest)) (hw : s.rx ++ ws = w :: ps) :
    step s = performPacket ⟨w, ps⟩ { s with rx := [], channel := rest } := by
  have hc : s.channel ≠ [] := by
    intro hnil
    rw [hnil] at hs
    cases hs
  rw [step, stepBlock, if_pos ⟨hr, hc⟩, receive, hs]
  simp only [hw, performWords]

/-- The idle block receives the words of a packet whose last word is still to come (R86). -/
theorem step_incomplete (hr : s.response = none) (hc : s.channel ≠ []) (hs : splitAtLast s.channel = none) :
    step s = .next { s with rx := s.rx ++ s.channel.map (·.word), channel := [] } := by
  rw [step, stepBlock, if_pos ⟨hr, hc⟩, receive, hs]

end

/-- Every step answers a next state, which `step_cases` and `performPacket_cases` give. -/
theorem exists_step (s : State) : ∃ t, step s = .next t := by
  obtain ⟨_, w, ps, rest, _, _, _, h⟩ | ⟨_, _, _, h⟩ | ⟨_, h⟩ := step_cases s
  · obtain ⟨mt, mti, r, hp⟩ := performPacket_cases ⟨w, ps⟩ { s with rx := [], channel := rest }
    exact ⟨_, h.trans hp⟩
  · exact ⟨_, h⟩
  · exact ⟨_, h⟩

/-- What a step can leave: the state after a packet, with nothing of it held and its response waiting; a state
that differs in the words held and those on the channel, with no response; or the state after the host's move. -/
theorem step_next_cases {s t : State} (h : step s = .next t) :
    (∃ p rest r, performPacket p { s with rx := [], channel := rest } = .next t ∧
        t = { s with rx := [], channel := rest, mt := t.mt, mti := t.mti, response := some r }) ∨
      (s.response = none ∧ ∃ ws, t = { s with rx := ws, channel := [] }) ∨ t = hostMove s := by
  obtain ⟨_, w, ps, rest, _, _, _, hs⟩ | ⟨hr, _, _, hs⟩ | ⟨_, hs⟩ := step_cases s
  · obtain ⟨mt, mti, r, hp⟩ := performPacket_cases ⟨w, ps⟩ { s with rx := [], channel := rest }
    cases (hs.trans hp).symm.trans h
    exact .inl ⟨⟨w, ps⟩, rest, r, hp, rfl⟩
  · cases hs.symm.trans h
    exact .inr (.inl ⟨hr, _, rfl⟩)
  · cases hs.symm.trans h
    exact .inr (.inr rfl)

/-! ### What every step keeps -/

/-- The host's moves: words appear on the channel, or the response goes, or the block is reset. -/
theorem hostMove_keeps_inv {s : State} (h : s.Inv) : (hostMove s).Inv := by
  cases hm : s.moves with
  | nil => rwa [hostMove_nil hm]
  | cons m ms =>
    cases m with
    | send ws =>
      rw [hostMove_send hm]
      exact ⟨h.cursor, h.oneAtATime, h.response⟩
    | take =>
      rw [hostMove_take hm]
      exact ⟨h.cursor, fun hr => absurd rfl hr, fun r hr => by cases hr⟩
    | reset =>
      rw [hostMove_reset hm]
      exact ⟨show (625#10).toNat ≤ 625 by decide, fun _ => rfl, fun r hr => by cases hr⟩

/-- A packet leaves a legal cursor and a legal response, and none of its words are held. -/
theorem performPacket_keeps_inv {p : Packet} {s t : State} (h : s.mti.toNat ≤ 625) (hrx : t.rx = [])
    (hp : performPacket p s = .next t) : t.Inv := by
  refine ⟨?_, fun _ => hrx, fun r => legal_of_performPacket hp⟩
  obtain hsame | hle := mti_of_performPacket hp
  · rwa [hsame]
  · omega

/-- Settles O37: each case of the step keeps the invariant. -/
theorem stepKeepsTheInvariant : Obligations.StepKeepsTheInvariant := by
  intro s t h hstep
  obtain ⟨p, rest, r, hp, ht⟩ | ⟨hr, ws, rfl⟩ | rfl := step_next_cases hstep
  · exact performPacket_keeps_inv (s := { s with rx := [], channel := rest }) h.cursor (by rw [ht]) hp
  · exact ⟨h.cursor, fun hne => absurd hr hne, h.response⟩
  · exact hostMove_keeps_inv h

/-- Settles O38: nothing is held or waits in the reset state. -/
theorem resetStateMeetsTheInvariant : Obligations.ResetStateMeetsTheInvariant := by
  have hreset (cfg : Config) (mt : Buffer) : (State.resetOf cfg mt).Inv :=
    ⟨show (625#10).toNat ≤ 625 by decide, fun _ => rfl, fun r hr => by cases hr⟩
  exact ⟨hreset, hreset _ _⟩

/-- Settles O36: `step_cases` names the next state in each case. -/
theorem everyStepAnswersANextState : Obligations.EveryStepAnswersANextState := exists_step

theorem hostMove_cfg (s : State) : (hostMove s).cfg = s.cfg := by
  unfold hostMove
  split <;> simp

/-- Settles O40: no case of the step writes the configuration. -/
theorem noStepChangesTheBuild : Obligations.NoStepChangesTheBuild := by
  intro s t hstep
  obtain ⟨p, rest, r, _, ht⟩ | ⟨_, ws, rfl⟩ | rfl := step_next_cases hstep
  · rw [ht]
  · rfl
  · exact hostMove_cfg s

/-- The one host move that writes the cursor is reset. -/
theorem hostMove_mti (s : State) : (hostMove s).mti = s.mti ∨ s.moves = .reset :: (hostMove s).moves := by
  cases hm : s.moves with
  | nil => exact .inl (by rw [hostMove_nil hm])
  | cons m ms =>
    cases m with
    | send ws => exact .inl (by rw [hostMove_send hm])
    | take => exact .inl (by rw [hostMove_take hm]; rfl)
    | reset => exact .inr (by rw [hostMove_reset hm]; rfl)

/-- Settles O39: a packet leaves the cursor alone or at most 624, and only reset among the host's moves writes it. -/
theorem onlyResetUninitializesTheBlock : Obligations.OnlyResetUninitializesTheBlock := by
  refine ⟨fun s t hstep ht => ?_, fun i s t r h hr hok hi ht => ?_, fun s t h => ?_⟩
  · obtain ⟨p, rest, r, hp, _⟩ | ⟨_, ws, rfl⟩ | rfl := step_next_cases hstep
    · obtain hsame | hle := mti_of_performPacket hp
      · exact .inl (hsame.symm.trans ht)
      · exact absurd (ht ▸ hle) (by decide)
    · exact .inl ht
    · exact (hostMove_mti s).imp_left fun hsame => hsame.symm.trans ht
  · obtain ⟨_, hrs | rfl⟩ | ⟨_, hle⟩ := mti_of_exec h
    · exact hi hrs
    · exact absurd ((res_of_exec h hr).symm.trans hok) (by simp)
    · exact absurd (ht ▸ hle) (by decide)
  · obtain ⟨_, hi | hi⟩ | hrange := mti_of_exec h
    · cases hi
    · cases hi
    · exact hrange

/-! ### The step on a packet, and on reset -/

/-- Settles O34: the packet's words are the channel's up to the first mark. -/
theorem stepPerformsTheDecodedCommand : Obligations.StepPerformsTheDecodedCommand := by
  intro s p rest i hr hrx hc hd
  have hsplit : splitAtLast s.channel = some (p.header :: p.payload, rest) := by
    rw [hc, channelWords, splitAtLast_markLast]
  rw [step_complete hr hsplit (by rw [hrx, List.nil_append]), performPacket_of_decode hd, ← hrx]

/-- Settles O35: `splitAtLast` finds no packet in unmarked words, and finds its end at the first mark. -/
theorem packetMayArriveInPieces : Obligations.PacketMayArriveInPieces := by
  refine ⟨fun s => step_unmarked, fun s us rest w h ps hr hus hc hw => ?_⟩
  have hsplit : splitAtLast s.channel = some (us.map (·.word) ++ [w], rest) := by
    rw [hc, splitAtLast_append hus]
  exact step_complete hr hsplit (by rw [← List.append_assoc, hw])

/-- Settles O43: it is the host's turn, and its move is reset. -/
theorem resetMoveEntersTheResetState : Obligations.ResetMoveEntersTheResetState := by
  intro s ms hm hturn
  exact ⟨_, step_eq_hostMove hturn, by rw [hostMove_reset hm]; rfl⟩

/-! ### The contents of the uninitialized buffer (R17, R19) -/

/-- Two states of a pair of runs: equal, or uninitialized and different in the buffer's contents at most. -/
def SameButUninitialized (s s' : State) : Prop :=
  s' = s ∨ s.mti = 625#10 ∧ s' = { s with mt := s'.mt }

section
variable {s : State} (h : s.mti = 625#10) (mt : Buffer)
include h

/-- A command of an uninitialized block seeds the buffer or does not look at it. -/
theorem exec_keeps_sameButUninitialized (i : Instr) :
    ∃ t t', exec i s = .next t ∧ exec i { s with mt := mt } = .next t' ∧ SameButUninitialized t t' := by
  have hsame (hi : SameAnswer i s { s with mt := mt }) :
      ∃ t t', exec i s = .next t ∧ exec i { s with mt := mt } = .next t' ∧ SameButUninitialized t t' := by
    obtain ⟨mt', mti, r, ht, ht'⟩ := hi
    exact ⟨_, _, ht, ht', .inl rfl⟩
  cases i with
  | seedScalar seed => exact hsame (sameAnswer_seedScalar seed s _)
  | seedArray key =>
    cases key with
    | nil => exact ⟨_, _, exec_seedArray_nil s, exec_seedArray_nil _, .inr ⟨h, rfl⟩⟩
    | cons w ws => exact hsame (sameAnswer_seedArray (Nat.succ_pos _) rfl)
  | nextU32 => exact hsame (sameAnswer_nextU32_uninitialized h h)
  | readStatus => exact ⟨_, _, exec_readStatus s, exec_readStatus _, .inr ⟨h, rfl⟩⟩

theorem performPacket_keeps_sameButUninitialized (p : Packet) :
    ∃ t t', performPacket p s = .next t ∧ performPacket p { s with mt := mt } = .next t' ∧
      SameButUninitialized t t' := by
  cases hd : decode p with
  | instr i =>
    rw [performPacket_of_decode hd, performPacket_of_decode hd]
    exact exec_keeps_sameButUninitialized h mt i
  | illegal c =>
    rw [performPacket, performPacket, hd]
    exact ⟨_, _, rfl, rfl, .inr ⟨h, rfl⟩⟩

/-- No host move looks at the buffer, and reset overwrites it. -/
theorem hostMove_keeps_sameButUninitialized :
    SameButUninitialized (hostMove s) (hostMove { s with mt := mt }) := by
  cases hm : s.moves with
  | nil =>
    rw [← hm, hostMove_nil hm, hostMove_nil (s := { s with mt := mt }) hm]
    exact .inr ⟨h, rfl⟩
  | cons m ms =>
    cases m with
    | send ws =>
      rw [hostMove_send hm]
      exact .inr ⟨h, rfl⟩
    | take =>
      rw [hostMove_take hm]
      exact .inr ⟨h, rfl⟩
    | reset =>
      rw [hostMove_reset hm]
      exact .inl rfl

end

/-- Both runs take the same case of the step: the buffer is not looked at to choose it. -/
theorem step_keeps_sameButUninitialized {s s' : State} (h : SameButUninitialized s s') :
    ∃ t t', step s = .next t ∧ step s' = .next t' ∧ SameButUninitialized t t' := by
  obtain rfl | ⟨hu, hs'⟩ := h
  · obtain ⟨t, ht⟩ := exists_step s'
    exact ⟨t, t, ht, ht, .inl rfl⟩
  rw [hs']
  generalize s'.mt = mt
  obtain ⟨hr, w, ps, rest, ws, hs, hw, hstep⟩ | ⟨hr, hc, hs, hstep⟩ | ⟨hturn, hstep⟩ := step_cases s
  · rw [hstep, step_complete (s := { s with mt := mt }) hr hs hw]
    exact performPacket_keeps_sameButUninitialized (s := { s with rx := [], channel := rest }) hu mt _
  · exact ⟨_, _, hstep, step_incomplete (s := { s with mt := mt }) hr hc hs, .inr ⟨hu, rfl⟩⟩
  · exact ⟨_, _, hstep, step_eq_hostMove (s := { s with mt := mt }) hturn,
      hostMove_keeps_sameButUninitialized hu mt⟩

theorem runSteps_keeps_sameButUninitialized (k : Nat) {s s' : State} (h : SameButUninitialized s s') :
    ∃ t t', runSteps k s = .next t ∧ runSteps k s' = .next t' ∧ SameButUninitialized t t' := by
  induction k generalizing s s' with
  | zero => exact ⟨s, s', runSteps_zero s, runSteps_zero s', h⟩
  | succ k ih =>
    obtain ⟨u, u', hu, hu', hsame⟩ := step_keeps_sameButUninitialized h
    rw [runSteps_succ k s u hu, runSteps_succ k s' u' hu']
    exact ih hsame

/-- Settles O41: the pair of states stays equal, or uninitialized and different in the buffer alone. -/
theorem uninitializedContentsAreUnobservable : Obligations.UninitializedContentsAreUnobservable := by
  intro s mt k hs
  obtain ⟨t, t', ht, ht', hsame⟩ :=
    runSteps_keeps_sameButUninitialized k (s := s) (s' := { s with mt := mt }) (.inr ⟨hs, rfl⟩)
  refine ⟨t, t', ht, ht', ?_, fun hne => hsame.resolve_right fun hu => hne hu.1⟩
  obtain rfl | ⟨_, heq⟩ := hsame
  · rfl
  · exact heq

end Sys2Proof.Machine
end

section
/-! PROOFS. Sessions (20_memory.md section 5; 40_core_commands.md section 6): what two sessions share, the stream
after a seed, the host's draws, and a session as a run of the machine. -/

namespace Sys2Proof.Machine

/-- A command whose outcome is known, followed by the taking of its response. -/
theorem performAndTake_of_exec {i : Instr} {s t : State} {r : Response} (h : exec i s = .next t)
    (hr : t.response = some r) : performAndTake i s = some (r, takeResponse t) := by
  rw [performAndTake, h]
  simp only [hr, Option.map_some]

/-- A session whose rest is known. -/
theorem session_cons_of_eq {i : Instr} {is : List Instr} {s t u : State} {r : Response} {rs : List Response}
    (h : performAndTake i s = some (r, t)) (hs : session is t = some (rs, u)) :
    session (i :: is) s = some (r :: rs, u) := by
  rw [session_cons i is s t r h, hs, Option.map_some]

/-! ### Sessions in two states (R57) -/

/-- Both sessions complete with the same responses and leave the same buffer and cursor. -/
def SameSession (is : List Instr) (s s' : State) : Prop :=
  ∃ rs t t', session is s = some (rs, t) ∧ session is s' = some (rs, t') ∧ t'.mt = t.mt ∧ t'.mti = t.mti

/-- A command with the same answer in both states goes before a session that is the same in all pairs of
states with one buffer and one cursor that keep the builds. -/
theorem sameSession_cons {i : Instr} {is : List Instr} {s s' : State} (h : SameAnswer i s s')
    (hrest : ∀ t t' : State, t.cfg = s.cfg → t'.cfg = s'.cfg → t'.mt = t.mt → t'.mti = t.mti →
      SameSession is t t') : SameSession (i :: is) s s' := by
  obtain ⟨mt, mti, r, he, he'⟩ := h
  obtain ⟨rs, t, t', hs, hs', hend⟩ :=
    hrest { s with mt := mt, mti := mti, response := none } { s' with mt := mt, mti := mti, response := none }
      rfl rfl rfl rfl
  exact ⟨r :: rs, t, t', session_cons_of_eq (performAndTake_of_exec he rfl) hs,
    session_cons_of_eq (performAndTake_of_exec he' rfl) hs', hend⟩

/-- From one buffer and one cursor the same commands give the same session, if the builds are the same or the
commands do not look at them. -/
theorem sameSession_of_eq {is : List Instr} {s s' : State} (h : ∀ i ∈ is, IgnoresBuild i ∨ s'.cfg = s.cfg)
    (hmt : s'.mt = s.mt) (hmti : s'.mti = s.mti) : SameSession is s s' := by
  induction is generalizing s s' with
  | nil => exact ⟨[], s, s', rfl, rfl, hmt, hmti⟩
  | cons i is ih =>
    obtain ⟨hi, his⟩ := List.forall_mem_cons.mp h
    exact sameSession_cons (sameAnswer_of_eq hi hmt hmti) fun t t' hc hc' => ih (by rwa [hc, hc'])

/-- Settles O30: the seed gives both blocks one buffer and one cursor. -/
theorem scalarSeedErasesHistory : Obligations.ScalarSeedErasesHistory :=
  fun seed _ s s' his => sameSession_cons (sameAnswer_seedScalar seed s s')
    fun _ _ _ _ => sameSession_of_eq fun i hi => .inl (his i hi)

/-- Settles O31: the key gives both blocks one buffer and one cursor, and the builds are the same. -/
theorem arraySeedErasesHistory : Obligations.ArraySeedErasesHistory :=
  fun _ _ _ _ hkey hcfg => sameSession_cons (sameAnswer_seedArray (List.length_pos_iff.mpr hkey) hcfg)
    fun _ _ hc hc' => sameSession_of_eq fun _ _ => .inr (by rw [hc, hc', hcfg])

/-! ### The stream after a seed (R58) -/

/-- The response of call j after a seed that left the buffer `mt`. -/
def streamResponse (mt : Buffer) (j : Nat) : Response :=
  ⟨.ok, 3#4, some (temper ((twist^[j / 624 + 1] mt)[j % 624]'(Nat.mod_lt j (by decide))))⟩

/-- `t` is the block after j calls of NEXT_U32 since a seed that left the buffer `mt`: before call 0 and after
every 624 calls the block is exhausted, and the next call refills it. -/
structure AfterCalls (mt : Buffer) (j : Nat) (t : State) : Prop where
  mt : t.mt = twist^[(j + 623) / 624] mt
  mti : t.mti.toNat = (j + 623) % 624 + 1

/-- The buffer and the cursor that the refill leaves before call j. -/
theorem AfterCalls.refillIfDue_eq {mt : Buffer} {j : Nat} {s : State} (h : AfterCalls mt j s) :
    refillIfDue s = { s with mt := twist^[j / 624 + 1] mt, mti := BitVec.ofNat 10 (j % 624) } := by
  obtain ⟨hmt, hmti⟩ := h
  by_cases hj : j % 624 = 0
  · have hcount : (j + 623) / 624 = j / 624 := by omega
    have hfull : 624 ≤ s.mti.toNat ∧ s.mti ≠ 625#10 := by bv_omega
    rw [refillIfDue_exhausted s hfull.1 hfull.2, hmt, hcount, hj, Function.iterate_succ_apply']
  · have hcount : (j + 623) / 624 = j / 624 + 1 := by omega
    have hcursor : s.mti = BitVec.ofNat 10 (j % 624) := BitVec.eq_of_toNat_eq (by
      rw [BitVec.toNat_ofNat]
      omega)
    rw [refillIfDue_ready s (by omega), ← hcount, ← hmt, ← hcursor]

/-- One more call. -/
theorem AfterCalls.next {mt : Buffer} {j : Nat} {s : State} (h : AfterCalls mt j s) :
    ∃ t, performAndTake .nextU32 s = some (streamResponse mt j, t) ∧ AfterCalls mt (j + 1) t := by
  have hcursor : (BitVec.ofNat 10 (j % 624)).toNat = j % 624 := by
    rw [BitVec.toNat_ofNat]
    omega
  have hlt : (BitVec.ofNat 10 (j % 624)).toNat < 624 := by
    rw [hcursor]
    exact Nat.mod_lt j (by decide)
  have hexec := exec_nextU32_of_refill h.refillIfDue_eq hlt
  refine ⟨_, performAndTake_of_exec hexec (by simp only [streamResponse, hcursor]), ?_, ?_⟩
  · rw [show (j + 1 + 623) / 624 = j / 624 + 1 by omega]
    rfl
  · show (BitVec.ofNat 10 (j % 624) + 1#10).toNat = (j + 1 + 623) % 624 + 1
    rw [BitVec.toNat_add, hcursor, BitVec.toNat_ofNat]
    omega

/-- n more calls. -/
theorem AfterCalls.session {mt : Buffer} (n : Nat) {j : Nat} {s : State} (h : AfterCalls mt j s) :
    ∃ t, session (List.replicate n .nextU32) s = some ((List.range' j n).map (streamResponse mt), t) ∧
      AfterCalls mt (j + n) t := by
  induction n generalizing j s with
  | zero => exact ⟨s, rfl, h⟩
  | succ n ih =>
    obtain ⟨u, hu, hnext⟩ := h.next
    obtain ⟨t, ht, hend⟩ := ih hnext
    exact ⟨t, session_cons_of_eq hu ht, by rwa [Nat.add_assoc, Nat.add_comm 1] at hend⟩

/-- Settles O32: the n calls after the seed. -/
theorem streamAfterASeedRefillsEvery624Calls : Obligations.StreamAfterASeedRefillsEvery624Calls := by
  intro s n hs
  have hstart : AfterCalls s.mt 0 s := ⟨rfl, by rw [hs]; rfl⟩
  obtain ⟨t, ht, hend⟩ := hstart.session n
  obtain ⟨hmt, hmti⟩ := hend
  refine ⟨_, t, ht, by simp, fun j hj => ?_, fun hn => ⟨?_, ?_⟩⟩
  · simp [hj, streamResponse]
  · omega
  · rw [hmt]
    congr 1
    omega

/-! ### The stream from the uninitialized state (R59) -/

/-- The block that SEED_SCALAR 5489 leaves, its response taken. -/
def seeded5489 (s : State) : State :=
  { s with mt := seedFill s.mt defaultSeedValue, mti := 624#10, response := none }

theorem performAndTake_seed5489 (s : State) :
    performAndTake (.seedScalar 5489#32) s = some (⟨.ok, 1#4, none⟩, seeded5489 s) :=
  performAndTake_of_exec (exec_seedScalar _ s) rfl

/-- The default seed of the first NEXT_U32 is SEED_SCALAR 5489, and the refill follows it in both blocks (R53). -/
theorem performAndTake_nextU32_seeded5489 {s : State} (hs : s.mti = 625#10) :
    performAndTake .nextU32 (seeded5489 s) = performAndTake .nextU32 s := by
  have hu := refillIfDue_uninitialized s hs
  have he : refillIfDue (seeded5489 s) = { seeded5489 s with mt := twist (seeded5489 s).mt, mti := 0#10 } :=
    refillIfDue_exhausted (seeded5489 s) (show 624 ≤ (624#10).toNat by decide)
      (show 624#10 ≠ 625#10 by decide)
  obtain ⟨mt, mti, r, h, h'⟩ : SameAnswer .nextU32 s (seeded5489 s) :=
    sameAnswer_nextU32 (by rw [he, hu]; rfl) (by rw [he, hu])
  rw [performAndTake_of_exec h rfl, performAndTake_of_exec h' rfl]
  rfl

theorem exists_session (is : List Instr) (s : State) : ∃ rs t, session is s = some (rs, t) := by
  obtain ⟨rs, t, _, h, _⟩ := sameSession_of_eq (is := is) (s := s) (s' := s) (fun _ _ => .inr rfl) rfl rfl
  exact ⟨rs, t, h⟩

/-- Settles O33: the first NEXT_U32 seeds the block with 5489 itself, so after it the two blocks are equal. -/
theorem uninitializedStreamIsThatOfSeed5489 : Obligations.UninitializedStreamIsThatOfSeed5489 := by
  intro s n hs
  have hseed := performAndTake_seed5489 s
  cases n with
  | zero => exact ⟨_, [], s, _, rfl, session_cons_of_eq hseed rfl, fun h => absurd h (Nat.lt_irrefl 0)⟩
  | succ n =>
    obtain ⟨rs, t, ht⟩ := exists_session (List.replicate (n + 1) .nextU32) s
    have hsame : session (List.replicate (n + 1) .nextU32) (seeded5489 s) = some (rs, t) := by
      rw [← ht, List.replicate_succ, session, performAndTake_nextU32_seeded5489 hs, session]
    exact ⟨_, rs, t, t, ht, session_cons_of_eq hseed hsame, fun _ => rfl⟩

/-! ### The host's draws (41_host_derived_outputs.md R61) -/

/-- A draw is NEXT_U32's data word, with the response taken. -/
theorem draw_of_exec {s t : State} {r : Response} {w : Word} (h : exec .nextU32 s = .next t)
    (hr : t.response = some r) (hw : r.data = some w) : draw s = some (w, takeResponse t) := by
  rw [draw, h]
  simp only [hr, Option.bind_some, hw, Option.map_some]

theorem exists_draw (s : State) :
    ∃ r t, draw s = some (r, t) ∧ exec .nextU32 s = .next { t with response := some ⟨.ok, 3#4, some r⟩ } ∧
      t.response = none := by
  have h := exec_nextU32 s
  exact ⟨_, takeResponse _, draw_of_exec h rfl rfl, h, rfl⟩

/-- Settles O45: every output is a function of the words drawn. -/
theorem derivedOutputsConsumeTheirDraws : Obligations.DerivedOutputsConsumeTheirDraws := by
  intro s
  obtain ⟨r, t, h, hexec, hnone⟩ := exists_draw s
  obtain ⟨r', t', h', _⟩ := exists_draw t
  exact ⟨r, t, r', t', h, h', hexec, hnone, nextU31_of_draw h, nextReal1_of_draw h, nextReal2_of_draw h,
    nextReal3_of_draw h, nextRes53_of_draws h h'⟩

/-! ### A host that sends and takes (20_memory.md R28, R29) -/

/-- No command looks at the host's moves. -/
theorem session_with_moves {is : List Instr} {s t : State} {rs : List Response}
    (h : session is s = some (rs, t)) (ms : List HostMove) :
    session is { s with moves := ms } = some (rs, { t with moves := ms }) := by
  induction is generalizing s rs with
  | nil =>
    cases h
    rfl
  | cons i is ih =>
    obtain ⟨mt, mti, r, he, he'⟩ :=
      sameAnswer_of_eq (i := i) (s := s) (s' := { s with moves := ms }) (.inr rfl) rfl rfl
    rw [session_cons i is s _ r (performAndTake_of_exec he rfl), Option.map_eq_some_iff] at h
    obtain ⟨⟨rs', u⟩, hs, hend⟩ := h
    cases hend
    exact session_cons_of_eq (performAndTake_of_exec he' rfl) (ih hs)

section
variable {i : Instr} {s : State} {ms : List HostMove} (hidle : s.idle) (hwf : i.wellFormed = true)
  (hm : s.moves = .send (channelWords (encode i)) :: .take :: ms) {mt : Buffer} {mti : BitVec 10} {r : Response}
  (he : exec i s = .next { s with mt := mt, mti := mti, response := some r })
include hidle hwf hm he

/-- The first two of a command's three steps: the host sends its packet and the block performs it. -/
theorem runSteps_send_perform (k : Nat) :
    runSteps (k + 2) s =
      runSteps k { s with mt := mt, mti := mti, response := some r, moves := .take :: ms } := by
  obtain ⟨hr, hrx, hc⟩ := hidle
  obtain ⟨mt', mti', r', hs, hs'⟩ :=
    sameAnswer_of_eq (i := i) (s := s) (s' := { s with moves := .take :: ms }) (.inr rfl) rfl rfl
  cases hs.symm.trans he
  have hsend := (step_eq_hostMove (.inr hc)).trans (congrArg Host.Outcome.next (hostMove_send hm))
  have hperform := stepPerformsTheDecodedCommand
    { s with moves := .take :: ms, channel := s.channel ++ channelWords (encode i) } (encode i) s.channel i hr hrx
    (by simp [hc]) (decode_encode hwf)
  rw [runSteps_succ (k + 1) s _ hsend]
  exact runSteps_succ k _ _ (hperform.trans hs')

/-- The third: the host takes the response. -/
theorem runSteps_send_perform_take (k : Nat) :
    runSteps (k + 3) s =
      runSteps k { s with mt := mt, mti := mti, response := none, moves := ms } := by
  rw [runSteps_send_perform hidle hwf hm he (k + 1)]
  apply runSteps_succ
  rw [step_eq_hostMove (.inl (by simp)), hostMove_take rfl]
  rfl

end

/-- Settles O44: three steps a command, one command after another. -/
theorem stepsOfAHostAreTheSession : Obligations.StepsOfAHostAreTheSession := by
  intro is ms s hwf hidle hm
  induction is generalizing s with
  | nil =>
    obtain rfl : s.moves = ms := hm
    exact ⟨[], s, rfl, rfl, fun k hk => absurd hk (Nat.not_lt_zero k)⟩
  | cons i is ih =>
    obtain ⟨hi, his⟩ := List.forall_mem_cons.mp hwf
    obtain ⟨mt, mti, r, he⟩ := exec_cases i s
    have hm' : s.moves = .send (channelWords (encode i)) :: .take :: (sessionMoves is ++ ms) := hm
    obtain ⟨rs, t, ht, hrun, hwait⟩ :=
      ih { s with mt := mt, mti := mti, response := none, moves := sessionMoves is ++ ms } his
        ⟨rfl, hidle.2.1, hidle.2.2⟩ rfl
    refine ⟨r :: rs, { t with moves := s.moves },
      session_cons_of_eq (performAndTake_of_exec he rfl) (session_with_moves ht s.moves), ?_, fun k hk => ?_⟩
    · rw [List.length_cons, Nat.mul_succ, runSteps_send_perform_take hidle hi hm' he, hrun]
    · cases k with
      | zero => exact ⟨_, runSteps_send_perform hidle hi hm' he 0, rfl⟩
      | succ k =>
        obtain ⟨u, hu, hresp⟩ := hwait k (Nat.lt_of_succ_lt_succ hk)
        refine ⟨u, ?_, hresp⟩
        rw [Nat.mul_succ, Nat.add_right_comm, runSteps_send_perform_take hidle hi hm' he, hu]

end Sys2Proof.Machine
end

section
/-! PROOFS. The twist engine bit by bit and over a whole refill, and tempering as a linear bijection
(40_core_commands.md sections 3 and 4). -/

namespace Sys2Proof.Machine

/-! ### A twisted word, bit by bit -/

theorem getLsbD_upperMask (i : Nat) : upperMask.getLsbD i = decide (i = 31) := by
  have h : upperMask = BitVec.twoPow 32 31 := by decide
  rw [h, BitVec.getLsbD_twoPow]
  simp [eq_comm]

theorem getLsbD_lowerMask (i : Nat) : lowerMask.getLsbD i = decide (i < 31) := by
  have h : lowerMask = (BitVec.allOnes 31).setWidth 32 := by decide
  rw [h, BitVec.getLsbD_setWidth, BitVec.getLsbD_allOnes]
  by_cases hi : i < 31 <;> simp [hi]
  omega

/-- The word `{a[31], b[30:0]}` of a twist step, bit by bit (R49). -/
theorem getLsbD_spliced (a b : Word) (i : Nat) :
    ((a &&& upperMask) ||| (b &&& lowerMask)).getLsbD i =
      ((a.getLsbD i && decide (i = 31)) || (b.getLsbD i && decide (i < 31))) := by
  rw [BitVec.getLsbD_or, BitVec.getLsbD_and, BitVec.getLsbD_and, getLsbD_upperMask, getLsbD_lowerMask]

/-- A twisted word, bit by bit (R49). -/
theorem getLsbD_twistCombine (a b c : Word) (i : Nat) :
    (twistCombine a b c).getLsbD i =
      (c.getLsbD i ^^ ((a.getLsbD (i + 1) && decide (i + 1 = 31)) || (b.getLsbD (i + 1) && decide (i + 1 < 31))) ^^
        (b.getLsbD 0 && matrixA.getLsbD i)) := by
  have hlow : ((a &&& upperMask) ||| (b &&& lowerMask)).getLsbD 0 = b.getLsbD 0 := by
    rw [getLsbD_spliced]
    simp
  have hmatrix : (if b.getLsbD 0 = true then matrixA else 0#32).getLsbD i =
      (b.getLsbD 0 && matrixA.getLsbD i) := by
    cases b.getLsbD 0 <;> simp
  rw [twistCombine]
  simp only [hlow, BitVec.getLsbD_xor, BitVec.getLsbD_ushiftRight, hmatrix, Nat.add_comm 1 i, getLsbD_spliced]

/-- Settles O17: bit 31 has no bit above it, bit 30 has the upper word's, and the bits below it the lower
word's. -/
theorem twistWordBitByBit : Obligations.TwistWordBitByBit := by
  intro mt k old a c low new
  have hnew : new = twistCombine old a c := twistWord_self mt k
  have hbit (b : Nat) := hnew ▸ getLsbD_twistCombine old a c b
  refine ⟨?_, ?_, fun b hb => ?_⟩
  · rw [hbit, BitVec.getLsbD_of_ge a 32 (by decide)]
    simp [low]
  · rw [hbit]
    simp [low]
  · rw [hbit]
    simp [low, show b ≠ 30 by omega, show b + 1 < 31 by omega]

/-! ### A whole refill (R50) -/

/-- The buffer `b` after n steps of a refill of `mt`: the words below n are twisted, each from its old value and
its neighbour's, and from the word 397 places on, which the refill has rewritten already if that is past the end.
Only the last word has a rewritten neighbour. -/
structure TwistedBelow (mt : Buffer) (n : Nat) (b : Buffer) : Prop where
  old : ∀ i (hi : i < 624), n ≤ i → b[i] = mt[i]
  low : ∀ i (hi : i < 227), i < n → b[i] = twistCombine mt[i] mt[i + 1] mt[i + 397]
  middle : ∀ i (_ : 227 ≤ i) (hi : i < 623), i < n →
    b[i] = twistCombine mt[i] mt[i + 1] (b[i - 227]'(by omega))
  last : 623 < n → b[623] = twistCombine mt[623] b[0] b[396]

theorem twistWord_keeps_twistedBelow {mt b : Buffer} {n : Nat} (hn : n < 624) (h : TwistedBelow mt n b) :
    TwistedBelow mt (n + 1) (twistWord b ⟨n, hn⟩) := by
  have hother (i : Nat) (hi : i < 624) (hne : i ≠ n) : (twistWord b ⟨n, hn⟩)[i] = b[i] :=
    twistWord_other b ⟨n, hn⟩ i hi hne
  have hself := twistWord_self b ⟨n, hn⟩
  refine ⟨fun i hi hle => ?_, fun i hi hlt => ?_, fun i hlo hi hlt => ?_, fun hlt => ?_⟩
  · rw [hother i hi (by omega), h.old i hi (by omega)]
  · by_cases hin : i = n
    · subst hin
      simp only [show (i + 1) % 624 = i + 1 by omega, show (i + 397) % 624 = i + 397 by omega] at hself
      rw [hself, h.old i, h.old (i + 1), h.old (i + 397)] <;> omega
    · rw [hother i (by omega) hin, h.low i hi (by omega)]
  · rw [hother (i - 227) (by omega) (by omega)]
    by_cases hin : i = n
    · subst hin
      simp only [show (i + 1) % 624 = i + 1 by omega, show (i + 397) % 624 = i - 227 by omega] at hself
      rw [hself, h.old i, h.old (i + 1)] <;> omega
    · rw [hother i (by omega) hin, h.middle i hlo hi (by omega)]
  · obtain rfl : n = 623 := by omega
    rw [hother 0 (by decide) (by decide), hother 396 (by decide) (by decide)]
    simp only [Nat.reduceAdd, Nat.reduceMod] at hself
    exact hself.trans (congrArg (twistCombine · b[0] b[396]) (h.old 623 hn (Nat.le_refl 623)))

theorem twist_twistedBelow (mt : Buffer) : TwistedBelow mt 624 (twist mt) := by
  have hstart : TwistedBelow mt 0 mt :=
    ⟨fun _ _ _ => rfl, fun _ _ h => absurd h (Nat.not_lt_zero _), fun _ _ _ h => absurd h (Nat.not_lt_zero _),
      fun h => absurd h (by decide)⟩
  unfold twist
  exact fold_induction (TwistedBelow mt) _ mt hstart fun n hn b => twistWord_keeps_twistedBelow hn

/-- Settles O18: all 624 steps are done. -/
theorem twistReadsOldAndNewWordsByRange : Obligations.TwistReadsOldAndNewWordsByRange := by
  intro mt b
  have h := twist_twistedBelow mt
  exact ⟨fun k hk => h.low k hk (by omega), fun k hlo hk => h.middle k hlo hk (by omega), h.last (by decide)⟩

/-! ### Steps of the form `y ^ g(y)` -/

/-- `g` takes XOR to XOR. -/
def XorLinear (g : Word → Word) : Prop := ∀ a b, g (a ^^^ b) = g a ^^^ g b

/-- The form of every tempering step, and of the seeders' `x ^ (x >> 30)`. -/
def xorStep (g : Word → Word) (y : Word) : Word := y ^^^ g y

theorem XorLinear.xorStep {g : Word → Word} (hg : XorLinear g) : XorLinear (xorStep g) := by
  intro a b
  simp only [Machine.xorStep, hg a b]
  ac_rfl

theorem XorLinear.comp {f g : Word → Word} (hf : XorLinear f) (hg : XorLinear g) : XorLinear (f ∘ g) :=
  fun a b => (congrArg f (hg a b)).trans (hf _ _)

/-- Over GF(2) the square of 1 + g is 1 + g². -/
theorem xorStep_xorStep {g : Word → Word} (hg : XorLinear g) (y : Word) :
    xorStep g (xorStep g y) = xorStep (g ∘ g) y := by
  simp only [xorStep, hg y (g y), Function.comp_apply]
  rw [← BitVec.xor_assoc, BitVec.xor_assoc y, BitVec.xor_self, BitVec.xor_zero]

/-- 1 + g is injective if its square is; so it is for every nilpotent g, by squaring again and again. -/
theorem xorStep_injective_of_comp {g : Word → Word} (hg : XorLinear g)
    (h : Function.Injective (xorStep (g ∘ g))) : Function.Injective (xorStep g) := by
  have hsq : xorStep g ∘ xorStep g = xorStep (g ∘ g) := funext (xorStep_xorStep hg)
  rw [← hsq] at h
  exact h.of_comp

theorem xorStep_injective_of_zero {g : Word → Word} (h : ∀ y, g y = 0#32) : Function.Injective (xorStep g) := by
  intro a b hab
  simpa [xorStep, h] using hab

/-! ### The steps of tempering: a shift down, or a shift up under a mask -/

/-- The g of the first and the last step. -/
def shiftDown (k : Nat) (y : Word) : Word := y >>> k

/-- The g of the two steps between them. -/
def maskedUp (k : Nat) (m : Word) (y : Word) : Word := (y <<< k) &&& m

/-- Temper is its four steps (R51). -/
theorem temper_eq_comp :
    temper = xorStep (shiftDown 18) ∘ xorStep (maskedUp 15 temperC) ∘ xorStep (maskedUp 7 temperB) ∘
      xorStep (shiftDown 11) :=
  rfl

theorem shiftDown_linear (k : Nat) : XorLinear (shiftDown k) := fun a b => BitVec.ushiftRight_xor_distrib a b k

theorem maskedUp_linear (k : Nat) (m : Word) : XorLinear (maskedUp k m) := by
  intro a b
  ext i hi
  simp [maskedUp, BitVec.shiftLeft_xor_distrib, Bool.and_xor_distrib_right]

theorem shiftDown_comp (k l : Nat) : shiftDown k ∘ shiftDown l = shiftDown (l + k) :=
  funext fun y => (BitVec.shiftRight_add y l k).symm

theorem maskedUp_comp (k l : Nat) (m n : Word) :
    maskedUp k m ∘ maskedUp l n = maskedUp (l + k) ((n <<< k) &&& m) :=
  funext fun y => by
    simp only [Function.comp_apply, maskedUp, BitVec.shiftLeft_and_distrib, BitVec.shiftLeft_add, BitVec.and_assoc]

/-- Doubling the shift n times shifts every bit out. -/
theorem xorStep_shiftDown_injective (n k : Nat) (h : 32 ≤ 2 ^ n * k) :
    Function.Injective (xorStep (shiftDown k)) := by
  induction n generalizing k with
  | zero => exact xorStep_injective_of_zero fun y => BitVec.ushiftRight_eq_zero (by omega)
  | succ n ih =>
    apply xorStep_injective_of_comp (shiftDown_linear k)
    rw [shiftDown_comp]
    exact ih (k + k) (by rwa [← Nat.two_mul, ← Nat.mul_assoc, ← Nat.pow_succ])

theorem xorStep_maskedUp_injective (n k : Nat) (m : Word) (h : 32 ≤ 2 ^ n * k) :
    Function.Injective (xorStep (maskedUp k m)) := by
  induction n generalizing k m with
  | zero =>
    refine xorStep_injective_of_zero fun y => ?_
    rw [maskedUp, BitVec.shiftLeft_eq_zero (by omega), BitVec.zero_and]
  | succ n ih =>
    apply xorStep_injective_of_comp (maskedUp_linear k m)
    rw [maskedUp_comp]
    exact ih (k + k) _ (by rwa [← Nat.two_mul, ← Nat.mul_assoc, ← Nat.pow_succ])

theorem temper_xorLinear : XorLinear temper := by
  rw [temper_eq_comp]
  exact (shiftDown_linear 18).xorStep.comp <| (maskedUp_linear 15 temperC).xorStep.comp <|
    (maskedUp_linear 7 temperB).xorStep.comp (shiftDown_linear 11).xorStep

theorem temper_injective : Function.Injective temper := by
  rw [temper_eq_comp]
  exact (xorStep_shiftDown_injective 1 18 (by decide)).comp <|
    (xorStep_maskedUp_injective 2 15 temperC (by decide)).comp <|
      (xorStep_maskedUp_injective 3 7 temperB (by decide)).comp (xorStep_shiftDown_injective 2 11 (by decide))

/-- Settles O20: each step is linear. -/
theorem temperIsLinear : Obligations.TemperIsLinear := ⟨by decide, temper_xorLinear⟩

/-- Settles O21: each step is injective, and there are finitely many words. -/
theorem temperIsABijection : Obligations.TemperIsABijection := Finite.injective_iff_bijective.mp temper_injective

/-! ### Linear bits of a word are given by their values at the powers of two -/

/-- `f`, a bit of a word's image, takes XOR to XOR. -/
def BitLinear (f : Word → Bool) : Prop := ∀ a b, f (a ^^^ b) = (f a ^^ f b)

/-- Two linear bits are equal if they are at the powers of two: a word is the XOR of
the powers of two of its bits, cleared here one by one from the top. -/
theorem BitLinear.eq_of_twoPow {f g : Word → Bool} (hf : BitLinear f) (hg : BitLinear g)
    (h : ∀ i, i < 32 → f (BitVec.twoPow 32 i) = g (BitVec.twoPow 32 i)) (y : Word) : f y = g y := by
  have hclear : ∀ n, n ≤ 32 → ∀ y : Word, (∀ i, n ≤ i → y.getLsbD i = false) → f y = g y := by
    intro n hn
    induction n with
    | zero =>
      intro y hy
      obtain rfl : y = 0#32 := BitVec.eq_of_getLsbD_eq fun i _ => by simp [hy i (Nat.zero_le i)]
      have hf0 := hf 0#32 0#32
      have hg0 := hg 0#32 0#32
      simp only [BitVec.xor_self, Bool.xor_self] at hf0 hg0
      rw [hf0, hg0]
    | succ n ih =>
      intro y hy
      have hbelow (z : Word) (hz : ∀ i, n + 1 ≤ i → z.getLsbD i = false) (hzn : z.getLsbD n = false) : f z = g z :=
        ih (by omega) z fun i hi => (Nat.eq_or_lt_of_le hi).elim (fun e => e ▸ hzn) (hz i)
      cases hyn : y.getLsbD n with
      | false => exact hbelow y hy hyn
      | true =>
        have hsplit : y = (y ^^^ BitVec.twoPow 32 n) ^^^ BitVec.twoPow 32 n := by
          rw [BitVec.xor_assoc, BitVec.xor_self, BitVec.xor_zero]
        have hrest : f (y ^^^ BitVec.twoPow 32 n) = g (y ^^^ BitVec.twoPow 32 n) := by
          refine hbelow _ (fun i hi => ?_) ?_
          · simp [BitVec.getLsbD_twoPow, hy i hi, show n ≠ i by omega]
          · simp [hyn, show n < 32 by omega]
        rw [hsplit, hf, hg, hrest, h n (by omega)]
  exact hclear 32 (Nat.le_refl 32) y fun i hi => BitVec.getLsbD_of_ge y i hi

/-- The XOR of the listed bits. -/
def xorOfBits (row : List Nat) (y : Word) : Bool := row.foldl (fun acc a => acc ^^ y.getLsbD a) false

theorem xorOfBits_linear (row : List Nat) : BitLinear (xorOfBits row) := by
  intro a b
  have hfold (p q : Bool) : row.foldl (fun acc i => acc ^^ (a ^^^ b).getLsbD i) (p ^^ q) =
      (row.foldl (fun acc i => acc ^^ a.getLsbD i) p ^^ row.foldl (fun acc i => acc ^^ b.getLsbD i) q) := by
    induction row generalizing p q with
    | nil => rfl
    | cons i row ih =>
      have hstep : ((p ^^ q) ^^ (a ^^^ b).getLsbD i) = ((p ^^ a.getLsbD i) ^^ (q ^^ b.getLsbD i)) := by
        simp only [BitVec.getLsbD_xor, Bool.xor_assoc, Bool.xor_left_comm]
      rw [List.foldl_cons, hstep, ih]
      rfl
  exact hfold false false

theorem temper_bit_linear (b : Nat) : BitLinear fun y => (temper y).getLsbD b :=
  fun x y => by simp only [temper_xorLinear x y, BitVec.getLsbD_xor]

/-- Settles O22: both sides are linear, so the table is checked at the 32 powers of two. -/
theorem temperIsTheXorTree : Obligations.TemperIsTheXorTree := by
  unfold Obligations.TemperIsTheXorTree
  intro rows y b row hrow
  have hb : b < 32 := (List.getElem?_eq_some_iff.mp hrow).1
  have htable : ∀ b, b < 32 → ∀ i, i < 32 →
      (temper (BitVec.twoPow 32 i)).getLsbD b = xorOfBits (rows.getD b []) (BitVec.twoPow 32 i) := by
    decide +kernel
  have hget : rows.getD b [] = row := by rw [List.getD_eq_getElem?_getD, hrow, Option.getD_some]
  exact (temper_bit_linear b).eq_of_twoPow (xorOfBits_linear row) (hget ▸ htable b hb) y

end Sys2Proof.Machine
end

section
/-! PROOFS. The two builds' array seeding compared (40_core_commands.md R60): SOURCE_COMPAT's overwrite of MT[0]
is seen only where phase 2 reads MT[0], at index 1. -/

namespace Sys2Proof.Machine

/-! ### Phase 2 with MT[0] left out of account -/

/-- Two walks at one index whose buffers agree in every word but MT[0]. -/
structure AgreeAboveZero (u v : Walk) : Prop where
  index : u.i = v.i
  words : ∀ j (hj : j < 624), j ≠ 0 → u.mt[j] = v.mt[j]

/-- The word that an iteration of phase 2 writes at the walk's index (R46). -/
def phase2Value (w : Walk) : Word := mixed fMix2 w - BitVec.ofNat 32 w.i.val

theorem phase2Step_eq_overwrite (mode : Phase2Mode) (w : Walk) :
    phase2Step mode w = overwrite mode (w.writeAndAdvance (phase2Value w)) :=
  rfl

/-- An iteration of phase 2 writes the word at its index, and of the other words MT[0] at most. -/
theorem phase2Step_getElem (mode : Phase2Mode) (w : Walk) (j : Nat) (hj : j < 624) (h0 : j ≠ 0) :
    (phase2Step mode w).mt[j] = if w.i.val = j then phase2Value w else w.mt[j] := by
  rw [phase2Step_eq_overwrite, overwrite_other mode _ j hj h0]
  by_cases hwrap : w.i.val + 1 < 624
  · rw [writeAndAdvance_inner w _ hwrap, Vector.getElem_set]
  · have hlast : w.i.val = 623 := by omega
    rw [writeAndAdvance_wrap w _ hlast, Vector.getElem_set_ne _ hj (Ne.symm h0), Vector.getElem_set, hlast]

/-- An iteration reads the word at its index and the word before it, so MT[0] at index 1 alone. -/
theorem phase2Value_congr {u v : Walk} (h : AgreeAboveZero u v) (hpos : 1 ≤ u.i.val)
    (h0 : u.i.val = 1 → u.mt[0] = v.mt[0]) : phase2Value u = phase2Value v := by
  obtain ⟨um, i⟩ := u
  obtain ⟨vm, i'⟩ := v
  obtain rfl : i = i' := h.index
  have hword : um[i.val] = vm[i.val] := h.words i.val i.isLt (Nat.ne_of_gt hpos)
  have hbefore : um[i.val - 1] = vm[i.val - 1] := by
    by_cases hone : i.val = 1
    · simpa only [hone] using h0 hone
    · exact h.words (i.val - 1) (by omega) (fun hz => hone (Nat.le_antisymm (Nat.sub_eq_zero_iff_le.mp hz) hpos))
  simp only [phase2Value, mixed, Fin.getElem_fin, hword, hbefore]

theorem phase2Step_agreeAboveZero (mode mode' : Phase2Mode) {u v : Walk} (h : AgreeAboveZero u v)
    (hpos : 1 ≤ u.i.val) (h0 : u.i.val = 1 → u.mt[0] = v.mt[0]) :
    AgreeAboveZero (phase2Step mode u) (phase2Step mode' v) := by
  refine ⟨Fin.ext (by rw [phase2Step_index, phase2Step_index, h.index]), fun j hj hne => ?_⟩
  rw [phase2Step_getElem mode u j hj hne, phase2Step_getElem mode' v j hj hne, phase2Value_congr h hpos h0,
    h.words j hj hne, h.index]

/-- On the way from an index to the end of the buffer the two walks agree, if they agree in MT[0] at the start
or start above index 1. -/
theorem iterate_agreeAboveZero (mode mode' : Phase2Mode) {u v : Walk} (h : AgreeAboveZero u v)
    (hpos : 1 ≤ u.i.val) (h0 : u.i.val = 1 → u.mt[0] = v.mt[0]) (n : Nat) (hn : u.i.val + n ≤ 624) :
    AgreeAboveZero ((phase2Step mode)^[n] u) ((phase2Step mode')^[n] v) := by
  induction n with
  | zero => exact h
  | succ n ih =>
    have hindex := phase2_index mode u hpos n
    rw [Function.iterate_succ_apply', Function.iterate_succ_apply']
    refine phase2Step_agreeAboveZero mode mode' (ih (by omega)) (by omega) fun hone => ?_
    obtain rfl : n = 0 := by omega
    exact h0 (by omega)

/-- From an index to the end of the buffer phase 2 leaves the words before the index, and those it has not
reached, as they were; MT[0] apart. -/
theorem iterate_getElem_other (mode : Phase2Mode) {u : Walk} (hpos : 1 ≤ u.i.val) (n : Nat)
    (hn : u.i.val + n ≤ 624) (j : Nat) (hj : j < 624) (h0 : j ≠ 0) (hout : j < u.i.val ∨ u.i.val + n ≤ j) :
    ((phase2Step mode)^[n] u).mt[j] = u.mt[j] := by
  induction n with
  | zero => rfl
  | succ n ih =>
    have hindex := phase2_index mode u hpos n
    rw [Function.iterate_succ_apply', phase2Step_getElem mode _ j hj h0, if_neg (by omega)]
    exact ih (by omega) (by omega)

/-! ### At index 1 the written word shows MT[0] -/

theorem foldTop_eq_xorStep : foldTop = xorStep (shiftDown 30) := rfl

theorem foldTop_injective : Function.Injective foldTop := by
  rw [foldTop_eq_xorStep]
  exact xorStep_shiftDown_injective 1 30 (by decide)

/-- F_MIX2 is odd: it has an inverse modulo 2^32. -/
theorem mul_fMix2_injective : Function.Injective (· * fMix2) := by
  have hinv : fMix2 * 1786162797#32 = 1#32 := by decide
  intro a b hab
  have h := congrArg (· * 1786162797#32) hab
  simpa only [BitVec.mul_assoc, hinv, BitVec.mul_one] using h

/-- Two walks at index 1 that agree in MT[1] write one word exactly if they agree in MT[0]. -/
theorem phase2Value_eq_iff {u v : Walk} (h : AgreeAboveZero u v) (hone : u.i.val = 1) :
    phase2Value u = phase2Value v ↔ u.mt[0] = v.mt[0] := by
  refine ⟨fun he => ?_, fun h0 => phase2Value_congr h (by omega) fun _ => h0⟩
  obtain ⟨um, i⟩ := u
  obtain ⟨vm, i'⟩ := v
  obtain rfl : i = i' := h.index
  obtain rfl : i = 1 := Fin.ext hone
  have hword : um[1] = vm[1] := h.words 1 (by decide) (by decide)
  have hmixed : um[1] ^^^ (foldTop um[0] * fMix2) = vm[1] ^^^ (foldTop vm[0] * fMix2) :=
    (BitVec.sub_left_inj _).mp he
  rw [hword, BitVec.xor_right_inj] at hmixed
  exact foldTop_injective (mul_fMix2_injective hmixed)

/-! ### Phase 2 before and after its wrap -/

/-- The walk when phase 2 has gone from its start to the end of the buffer: its index is 1 again. -/
def atWrap (mode : Phase2Mode) (w : Walk) : Walk := (phase2Step mode)^[624 - w.i.val] w

section
variable {w : Walk} (hpos : 1 ≤ w.i.val) (mode : Phase2Mode)
include hpos

theorem atWrap_index : (atWrap mode w).i.val = 1 := by
  rw [atWrap, phase2_index mode w hpos]
  omega

/-- Phase 2 has as many iterations left after the wrap as there are indices before its start. -/
theorem phase2_eq_after_wrap : phase2 mode w = (phase2Step mode)^[w.i.val - 1] (atWrap mode w) := by
  have hsplit : 623 = (w.i.val - 1) + (624 - w.i.val) := by omega
  unfold phase2 atWrap
  rw [← Function.iterate_add_apply, ← hsplit]

/-- The last iteration before the wrap stands at index 623. -/
theorem atWrap_eq_step : ∃ u : Walk, u.i.val = 623 ∧ atWrap mode w = phase2Step mode u := by
  have hcount : 624 - w.i.val = 623 - w.i.val + 1 := by omega
  refine ⟨(phase2Step mode)^[623 - w.i.val] w, ?_, ?_⟩
  · rw [phase2_index mode w hpos]
    omega
  · rw [atWrap, hcount, Function.iterate_succ_apply']

/-- CANONICAL's wrap copies MT[623] into MT[0] (R46). -/
theorem atWrap_canonical_zero : (atWrap .canonical w).mt[0] = (atWrap .canonical w).mt[623] := by
  obtain ⟨u, hu, he⟩ := atWrap_eq_step hpos .canonical
  rw [he, phase2Step_eq_overwrite, writeAndAdvance_wrap u _ hu]
  simp [overwrite]

/-- SOURCE_COMPAT overwrites that copy (decision D8). -/
theorem atWrap_sourceCompat_zero : (atWrap .sourceCompat w).mt[0] = forcedW0 := by
  obtain ⟨u, _, he⟩ := atWrap_eq_step hpos .sourceCompat
  rw [he]
  exact Vector.getElem_set_self _

theorem atWrap_agreeAboveZero : AgreeAboveZero (atWrap .canonical w) (atWrap .sourceCompat w) :=
  iterate_agreeAboveZero _ _ ⟨rfl, fun _ _ _ => rfl⟩ hpos (fun _ => rfl) _ (by omega)

/-- Where phase 2 starts and above, the words are those at the wrap. -/
theorem phase2_getElem_of_ge (j : Nat) (hj : j < 624) (hge : w.i.val ≤ j) :
    (phase2 mode w).mt[j] = (atWrap mode w).mt[j] := by
  have hone := atWrap_index hpos mode
  rw [phase2_eq_after_wrap hpos]
  exact iterate_getElem_other mode (by omega) _ (by omega) j hj (by omega) (by omega)

/-- MT[1] is written right after the wrap, and never again. -/
theorem phase2_getElem_one (hgt : w.i.val ≠ 1) : (phase2 mode w).mt[1] = phase2Value (atWrap mode w) := by
  have hone := atWrap_index hpos mode
  have hnext : (phase2Step mode (atWrap mode w)).i.val = 2 := by rw [phase2Step_index, hone]
  have hcount : w.i.val - 1 = w.i.val - 2 + 1 := by omega
  rw [phase2_eq_after_wrap hpos, hcount, Function.iterate_succ_apply,
    iterate_getElem_other mode (by omega) _ (by omega) 1 (by decide) (by decide) (by omega),
    phase2Step_getElem mode _ 1 (by decide) (by decide), if_pos hone]

/-- If phase 2 starts at index 1 it reads MT[0] before any overwrite. -/
theorem phase2_agree_of_start_one (hone : w.i.val = 1) :
    AgreeAboveZero (phase2 .canonical w) (phase2 .sourceCompat w) := by
  unfold phase2
  exact iterate_agreeAboveZero _ _ ⟨rfl, fun _ _ _ => rfl⟩ hpos (fun _ => rfl) 623 (by omega)

/-- If the wrap copies the word that SOURCE_COMPAT writes, nothing differs after it. -/
theorem phase2_agree_of_atWrap (h : (atWrap .canonical w).mt[623] = forcedW0) :
    AgreeAboveZero (phase2 .canonical w) (phase2 .sourceCompat w) := by
  have hone := atWrap_index hpos .canonical
  have h0 : (atWrap .canonical w).mt[0] = (atWrap .sourceCompat w).mt[0] := by
    rw [atWrap_canonical_zero hpos, h, atWrap_sourceCompat_zero hpos]
  rw [phase2_eq_after_wrap hpos, phase2_eq_after_wrap hpos]
  exact iterate_agreeAboveZero _ _ (atWrap_agreeAboveZero hpos) (by omega) (fun _ => h0) _ (by omega)

/-- MT[1] differs exactly if MT[623] is not 0x80000000 at the wrap. -/
theorem phase2_one_eq_iff (hgt : w.i.val ≠ 1) :
    (phase2 .canonical w).mt[1] = (phase2 .sourceCompat w).mt[1] ↔ (atWrap .canonical w).mt[623] = forcedW0 := by
  rw [phase2_getElem_one hpos _ hgt, phase2_getElem_one hpos _ hgt,
    phase2Value_eq_iff (atWrap_agreeAboveZero hpos) (atWrap_index hpos _), atWrap_canonical_zero hpos,
    atWrap_sourceCompat_zero hpos]

end

/-! ### The seeded buffers -/

section
variable (mt : Buffer) (key : List Word) (h : 0 < key.length)

theorem phase1_walk_index : (phase1 mt key h).walk.i.val = phase2Start key.length := by
  unfold phase1
  rw [phase1_index, phase2Start, Nat.add_comm]

/-- MT[0] is forced in both builds, so the seeded buffers are equal if phase 2 leaves the other words equal. -/
theorem arrayMix_eq_of_agree (hagree : AgreeAboveZero (phase2 .canonical (phase1 mt key h).walk)
      (phase2 .sourceCompat (phase1 mt key h).walk)) :
    arrayMix .canonical mt key h = arrayMix .sourceCompat mt key h := by
  refine Vector.ext fun i hi => ?_
  by_cases h0 : i = 0
  · subst h0
    rw [arrayMix_zero, arrayMix_zero]
  · rw [arrayMix_other _ mt key h i hi h0, arrayMix_other _ mt key h i hi h0, hagree.words i hi h0]

end

theorem phase2Start_eq_one_iff (n : Nat) : phase2Start n = 1 ↔ 1246 ≤ n ∧ n % 623 = 0 := by
  unfold phase2Start
  omega

/-- Settles O15: the overwrite is seen at the wrap alone, where the next word written is MT[1]. -/
theorem seedModesAgreeExactlyWhenTheSpecSays : Obligations.SeedModesAgreeExactlyWhenTheSpecSays := by
  intro buf key h i0 a b wrapped
  have hstart : (phase1 buf key h).walk.i.val = i0 := phase1_walk_index buf key h
  have hpos : 1 ≤ (phase1 buf key h).walk.i.val := hstart ▸ Nat.le_add_right 1 _
  have hwrapped : wrapped = atWrap .canonical (phase1 buf key h).walk := by rw [atWrap, hstart]
  refine ⟨phase2Start_eq_one_iff key.length, fun hone => ?_, fun hne => ?_⟩
  · exact arrayMix_eq_of_agree buf key h (phase2_agree_of_start_one hpos (hstart.trans hone))
  · have hsame (hw : wrapped.mt[623] = forcedW0) : a = b :=
      arrayMix_eq_of_agree buf key h (phase2_agree_of_atWrap hpos (hwrapped ▸ hw))
    have hone : a[1] = b[1] ↔ wrapped.mt[623] = forcedW0 := by
      rw [arrayMix_other _ buf key h 1 (by decide) (by decide), arrayMix_other _ buf key h 1 (by decide) (by decide),
        phase2_one_eq_iff hpos (hstart ▸ hne), hwrapped]
    refine ⟨⟨mt hsame, fun hw hab => ?_⟩, fun hab h1 => hab (hsame (hone.mp h1)), fun i hi hcase => ?_⟩
    · exact hw (hone.mp (by rw [hab]))
    · obtain rfl | hge := hcase
      · rw [arrayMix_zero, arrayMix_zero]
      · have h0 : i ≠ 0 := by omega
        rw [arrayMix_other _ buf key h i hi h0, arrayMix_other _ buf key h i hi h0,
          phase2_getElem_of_ge hpos _ i hi (hstart ▸ hge), phase2_getElem_of_ge hpos _ i hi (hstart ▸ hge)]
        exact (atWrap_agreeAboveZero hpos).words i hi h0

end Sys2Proof.Machine
end

section
/-! PROOFS. Rounding to nearest, ties to even (41_host_derived_outputs.md R61; decision D18), and the ranges of
the derived outputs (R67). -/

namespace Sys2Proof.Machine

/-! ### The finite values on the grid of a scale -/

/-- A finite value is a whole number, or has a significand of at most 53 bits. -/
theorem value_eq_div_of_finiteNonneg {y : Binary64} (h : y.finiteNonneg = true) :
    ∃ m k : Nat, y.value = m / 2 ^ k ∧ (k = 0 ∨ m < 2 ^ 53) := by
  have hlt := (finiteNonneg_iff y).mp h
  have h63 : y.toNat < 2 ^ 63 := by omega
  obtain h0 | h0 := Nat.eq_zero_or_pos (y.toNat / 2 ^ 52)
  · exact ⟨y.toNat % 2 ^ 52, 1074, by rw [value_subnormal y h63 h0, Nat.cast_pow, Nat.cast_ofNat], .inr (by omega)⟩
  · obtain he | he := Nat.lt_or_ge (y.toNat / 2 ^ 52) 1075
    · exact ⟨_, _, value_normal y h63 (Nat.ne_of_gt h0) he, .inr (by omega)⟩
    · exact ⟨_, 0, by rw [value_whole y h63 he, pow_zero, div_one], .inl rfl⟩

/-- At any scale a finite value is a whole number, or below 2^52. -/
theorem scaled_value_whole_or_small {y : Binary64} (h : y.finiteNonneg = true) (s : Nat) :
    (∃ n : Nat, y.value * 2 ^ s = n) ∨ y.value * 2 ^ s < (2 ^ 52 : Nat) := by
  obtain ⟨m, k, hy, hm⟩ := value_eq_div_of_finiteNonneg h
  obtain hks | hks := Nat.lt_or_ge s k
  case inr =>
    obtain ⟨d, rfl⟩ := Nat.exists_eq_add_of_le hks
    refine .inl ⟨m * 2 ^ d, ?_⟩
    rw [hy, pow_add, ← mul_assoc, div_mul_cancel₀ _ (by positivity)]
    push_cast
    rfl
  case inl =>
    obtain ⟨d, rfl⟩ := Nat.exists_eq_add_of_lt hks
    have hm53 : (m : ℚ) < 2 ^ 53 := by exact_mod_cast hm.resolve_left (by omega)
    have hd : (1 : ℚ) ≤ 2 ^ d := one_le_pow₀ (by norm_num)
    right
    calc y.value * 2 ^ s = m / (2 ^ d * 2) := by
          rw [hy, add_assoc, pow_add, pow_succ]
          field_simp
      _ ≤ m / 2 := div_le_div_of_nonneg_left (Nat.cast_nonneg m) (by norm_num) (by linarith)
      _ < (2 ^ 52 : Nat) := by
          push_cast
          linarith

/-! ### The nearest whole number -/

section
variable {m : Nat} {q : ℚ} (hnear : |(m : ℚ) - q| ≤ 1 / 2)
include hnear

/-- No whole number is nearer than one at most a half away, and another is as near only at a half. -/
theorem nearest_of_whole (n : Nat) :
    |(m : ℚ) - q| ≤ |(n : ℚ) - q| ∧ (n ≠ m → |(n : ℚ) - q| = |(m : ℚ) - q| → |(m : ℚ) - q| = 1 / 2) := by
  by_cases hnm : n = m
  · subst hnm
    exact ⟨le_rfl, fun h => absurd rfl h⟩
  · have hone : (1 : ℚ) ≤ |(n : ℚ) - m| := by
      have : (1 : ℤ) ≤ |(n : ℤ) - m| := Int.one_le_abs (by omega)
      exact_mod_cast this
    have htri : |(n : ℚ) - m| ≤ |(n : ℚ) - q| + |(m : ℚ) - q| := by
      rw [abs_sub_comm (m : ℚ) q]
      exact abs_sub_le _ _ _
    exact ⟨by linarith, fun _ he => by linarith⟩

/-- A number below a whole number that is itself at most q is farther than the nearest. -/
theorem nearest_of_small {c : Nat} (hc : (c : ℚ) ≤ q) {y : ℚ} (hy : y < c) : |(m : ℚ) - q| < |y - q| := by
  have hle := (nearest_of_whole hnear c).1
  rw [abs_of_nonpos (by linarith : (c : ℚ) - q ≤ 0)] at hle
  rw [abs_of_nonpos (by linarith : y - q ≤ 0)]
  linarith

end

/-- At a scale where q is 2^52 at least, the nearest whole number is nearest among the finite values. -/
theorem nearest_of_finiteNonneg {m : Nat} {q : ℚ} (hnear : |(m : ℚ) - q| ≤ 1 / 2) (hq : ((2 ^ 52 : Nat) : ℚ) ≤ q)
    {y : Binary64} (hy : y.finiteNonneg = true) (s : Nat) :
    |(m : ℚ) - q| ≤ |y.value * 2 ^ s - q| ∧
      (y.value * 2 ^ s ≠ m → |y.value * 2 ^ s - q| = |(m : ℚ) - q| → |(m : ℚ) - q| = 1 / 2) := by
  obtain ⟨n, hn⟩ | hsmall := scaled_value_whole_or_small hy s
  · obtain ⟨hle, htie⟩ := nearest_of_whole hnear n
    rw [hn]
    exact ⟨hle, fun hne => htie fun h => hne (h ▸ rfl)⟩
  · have hlt := nearest_of_small hnear hq hsmall
    exact ⟨hlt.le, fun _ he => absurd he hlt.ne'⟩

theorem abs_div_sub_div {p : ℚ} (hp : 0 < p) (a b : ℚ) : |a / p - b / p| = |a - b| / p := by
  rw [← sub_div, abs_div, abs_of_pos hp]

/-- Settles O47: at the scale of the fraction the finite values are whole numbers or below 2^52, and `fl` gives
the nearest whole number, the even one at a half. -/
theorem roundingIsToNearest : Obligations.RoundingIsToNearest := by
  intro num den hn hd hlt hk q x
  obtain ⟨hfinite, hvalue, hlow⟩ := fl_rounded hn hd hlt hk (by decide)
  obtain ⟨hscale, _⟩ := roundScale_bounds hn hd hlt
  obtain ⟨hnear, heven⟩ := roundHalfEven_near (num * 2 ^ roundScale num den) hd
  generalize roundHalfEven (num * 2 ^ roundScale num den) den = m at hvalue hlow hnear heven
  generalize roundScale num den = s at hvalue hscale hnear heven
  have hden : (0 : ℚ) < den := by exact_mod_cast hd
  have hp : (0 : ℚ) < 2 ^ s := by positivity
  have hq : q = (num * 2 ^ s : Nat) / den / 2 ^ s := by
    rw [eq_div_iff hp.ne', div_mul_eq_mul_div, Nat.cast_mul, Nat.cast_pow, Nat.cast_ofNat]
  have hlarge : ((2 ^ 52 : Nat) : ℚ) ≤ (num * 2 ^ s : Nat) / den := by
    rw [le_div_iff₀ hden, mul_comm]
    exact_mod_cast hscale
  refine ⟨hfinite, fun y hy => ?_⟩
  obtain ⟨hle, htie⟩ := nearest_of_finiteNonneg hnear hlarge hy s
  have hyscaled : y.value = y.value * 2 ^ s / 2 ^ s := (mul_div_cancel_right₀ _ hp.ne').symm
  rw [hyscaled, hq, hvalue, abs_div_sub_div hp, abs_div_sub_div hp]
  refine ⟨div_le_div_of_nonneg_right hle hp.le, fun hne he => ?_⟩
  have hhalf := htie (fun h => hne (by rw [h])) ((div_left_inj' hp.ne').mp he)
  exact hlow.trans (by rw [heven hhalf]; rfl)

/-! ### The ranges of the outputs (R67) -/

theorem fields_of_finiteNonneg {x : Binary64} (h : x.finiteNonneg = true) :
    x.getLsbD 63 = false ∧ (x.extractLsb' 52 11).toNat < 2047 := by
  simpa [Binary64.finiteNonneg] using h

/-- Settles O52: NEXT_REAL1 rounds a fraction below 1, and the other outputs are exact. -/
theorem derivedOutputsStayInTheirRanges : Obligations.DerivedOutputsStayInTheirRanges := by
  intro r r'
  obtain ⟨hfinite1, hle1⟩ := real1_le_one r
  have h2 := real2_dyadic r
  have h3 := real3_dyadic r
  have h53 := res53_dyadic r r'
  refine ⟨?_, ⟨value_nonneg _, hle1⟩, ⟨value_nonneg _, h2.value_lt_one r.isLt⟩,
    ⟨h3.value_pos (Nat.succ_pos _), h3.value_lt_one (by omega)⟩, ⟨value_nonneg _, h53.value_lt_one (by omega)⟩⟩
  simp only [List.forall_mem_cons, List.not_mem_nil, false_imp_iff, implies_true, and_true]
  exact ⟨fields_of_finiteNonneg hfinite1, fields_of_finiteNonneg h2.finite, fields_of_finiteNonneg h3.finite,
    fields_of_finiteNonneg h53.finite⟩

end Sys2Proof.Machine
end
